-- ==== Sys2Proof/Word.lean ====
section
/-! DEFINITION. The word types of the excavator core (00_scope.md R6, R8). -/

namespace Sys2Proof

/-- One byte of the program, and one operand field: a `u8` (R8, R29, R42). -/
abbrev Byte := BitVec 8

/-- A 16-bit pattern: the immediate of Load (R43). -/
abbrev Imm16 := BitVec 16

/-- A 32-bit pattern, read as `s32` or as `u32` where a rule says so (R8). -/
abbrev Word := BitVec 32

end Sys2Proof
end

