-- ==== Sys2Proof/Config.lean ====
section
/-! DEFINITION. The parameters of the machine (00_scope.md R6): `OPCODE_MAP` and `EXT_CMP`, and the tags they number.
The values this hardware takes stand in Decode.lean (`hardwareConfig`), where a later repair may mend them. -/

namespace Sys2Proof

/-- The closed set of tags (R45). -/
inductive Tag where
  | halt
  | load
  | add
  | sub
  | mul
  | div
  | jumpAbsolute
  | jumpForward
  | jumpBackward
  | equal
  | notEqual
  | greaterThan
  | lessThan
  | greaterOrEqual
  | lessOrEqual
  | jumpIfEqual
  | invalid
deriving DecidableEq, Repr

/-- The nine tags whose codes `OPCODE_MAP` gives (R6), in the order of the source's tag list (R45). -/
def mappedTags : List Tag :=
  [.halt, .load, .add, .sub, .mul, .div, .jumpAbsolute, .jumpForward, .jumpBackward]

/-- The parameters of R6. `opcodeMap[c]` is the tag of code `c`; `bijective` says that the codes 0 to 8 are the nine
mapped tags, each once. -/
structure Config where
  opcodeMap : Vector Tag 9
  extCmp    : Bool
  bijective : opcodeMap.toList.Perm mappedTags
deriving DecidableEq, Repr

end Sys2Proof
end

