-- ==== Sys2Proof/Syntax.lean ====
section
/-! DEFINITION. The instructions: one constructor per row of spec/opcode_table.json. A register operand is the
instruction's own byte (R14, R42): a byte above 31 is a legal operand byte whose instruction faults when it executes
(R54). Padding bytes are never read (R44) and are not kept. -/

namespace Sys2Proof

inductive Instr where
  /-- HLT (R59). -/
  | hlt
  /-- LOAD (R61): destination register, immediate. -/
  | load (r : Byte) (imm : Imm16)
  /-- ADD (R64): first source, second source, destination. -/
  | add (s1 s2 d : Byte)
  /-- SUB (R65): minuend, subtrahend, destination. -/
  | sub (s1 s2 d : Byte)
  /-- MUL (R66): first source, second source, destination. -/
  | mul (s1 s2 d : Byte)
  /-- DIV (R67): dividend, divisor, destination of the quotient. -/
  | div (s1 s2 d : Byte)
  /-- JMP (R70): register of the target. -/
  | jmp (r : Byte)
  /-- JMPF (R71): register of the distance. -/
  | jmpf (r : Byte)
  /-- JMPB (R72): register of the distance. -/
  | jmpb (r : Byte)
  /-- EQ (R76). -/
  | eq (a b : Byte)
  /-- NEQ (R77). -/
  | neq (a b : Byte)
  /-- GT (R78). -/
  | gt (a b : Byte)
  /-- LT (R79). -/
  | lt (a b : Byte)
  /-- GTE (R80). -/
  | gte (a b : Byte)
  /-- LTE (R81). -/
  | lte (a b : Byte)
  /-- JEQ (R73): register of the target. -/
  | jeq (r : Byte)
  /-- An opcode byte that decodes to Invalid (R60), with that byte. -/
  | invalid (op : Byte)
deriving DecidableEq, Repr

/-- The tag of an instruction (R45, R55). -/
def Instr.tag : Instr → Tag
  | .hlt => .halt
  | .load _ _ => .load
  | .add _ _ _ => .add
  | .sub _ _ _ => .sub
  | .mul _ _ _ => .mul
  | .div _ _ _ => .div
  | .jmp _ => .jumpAbsolute
  | .jmpf _ => .jumpForward
  | .jmpb _ => .jumpBackward
  | .eq _ _ => .equal
  | .neq _ _ => .notEqual
  | .gt _ _ => .greaterThan
  | .lt _ _ => .lessThan
  | .gte _ _ => .greaterOrEqual
  | .lte _ _ => .lessOrEqual
  | .jeq _ => .jumpIfEqual
  | .invalid _ => .invalid

/-- The register-index fields of an instruction, in the order b1, b2, b3 (R42, R54). -/
def Instr.regFields : Instr → List Byte
  | .hlt => []
  | .load r _ => [r]
  | .add s1 s2 d => [s1, s2, d]
  | .sub s1 s2 d => [s1, s2, d]
  | .mul s1 s2 d => [s1, s2, d]
  | .div s1 s2 d => [s1, s2, d]
  | .jmp r => [r]
  | .jmpf r => [r]
  | .jmpb r => [r]
  | .eq a b => [a, b]
  | .neq a b => [a, b]
  | .gt a b => [a, b]
  | .lt a b => [a, b]
  | .gte a b => [a, b]
  | .lte a b => [a, b]
  | .jeq r => [r]
  | .invalid _ => []

/-- The general register an instruction writes, where it writes one (R15). -/
def Instr.destination : Instr → Option Byte
  | .load r _ => some r
  | .add _ _ d => some d
  | .sub _ _ d => some d
  | .mul _ _ d => some d
  | .div _ _ d => some d
  | .hlt => none
  | .jmp _ => none
  | .jmpf _ => none
  | .jmpb _ => none
  | .eq _ _ => none
  | .neq _ _ => none
  | .gt _ _ => none
  | .lt _ _ => none
  | .gte _ _ => none
  | .lte _ _ => none
  | .jeq _ => none
  | .invalid _ => none

end Sys2Proof
end

