-- ==== Sys2Proof/WellFormed.lean ====
section
/-! DEFINITION. Which instructions are well-formed under given parameters: every register-index field names a register
(R14), the tag is present (R46), and the byte of an Invalid is one that decodes to Invalid (R48). -/

namespace Sys2Proof

/-- A register-index byte names a register (R14). -/
def regInRange (b : Byte) : Bool := decide (b.toNat ≤ 31)

/-- The tags that exist only when `EXT_CMP` is true (R46). -/
def Tag.extended : Tag → Bool
  | .notEqual | .greaterThan | .lessThan | .greaterOrEqual | .lessOrEqual | .jumpIfEqual => true
  | .halt | .load | .add | .sub | .mul | .div | .jumpAbsolute | .jumpForward | .jumpBackward | .equal | .invalid => false

/-- The opcode bytes that no instruction defines (R48). -/
def unassignedOpcode (cfg : Config) (op : Byte) : Bool :=
  decide (16 ≤ op.toNat) || (!cfg.extCmp && decide (10 ≤ op.toNat))

/-- The check on an Invalid's own byte (R48); no other instruction carries one. -/
def Instr.opcodeFits (cfg : Config) : Instr → Bool
  | .invalid op => unassignedOpcode cfg op
  | .hlt | .load _ _ | .add _ _ _ | .sub _ _ _ | .mul _ _ _ | .div _ _ _ | .jmp _ | .jmpf _ | .jmpb _
  | .eq _ _ | .neq _ _ | .gt _ _ | .lt _ _ | .gte _ _ | .lte _ _ | .jeq _ => true

/-- The instruction is one the machine with these parameters has, and its register fields name registers. -/
def Instr.wellFormed (cfg : Config) (i : Instr) : Bool :=
  i.regFields.all regInRange && (!i.tag.extended || cfg.extCmp) && i.opcodeFits cfg

end Sys2Proof
end

