-- ==== Sys2Proof/Decode.lean ====
section
/-! DEFINITION. The instruction decoder (30_encoding.md R39 to R48) and, after it, the encoder written from the same
tables. Decoding is total on any bytes; it rejects by name only when bytes are missing. -/

namespace Sys2Proof

/-- The parameters this hardware takes: the spec's defaults of `OPCODE_MAP` (D1, the order of the tag list) and of
`EXT_CMP` (D2). UNVERIFIED, unsafe: notes/assumptions/2.md and 3.md. -/
def hardwareConfig : Config where
  opcodeMap :=
    #v[.halt, .load, .add, .sub, .mul, .div, .jumpAbsolute, .jumpForward, .jumpBackward]
  extCmp := true
  bijective := by decide

/-- `decode(byte) -> tag` (R46): the codes 0 to 8 by `OPCODE_MAP`, 9 is Equal, 10 to 15 by `EXT_CMP`, the rest Invalid. -/
def tagOf (cfg : Config) (op : Byte) : Tag :=
  if h : op.toNat < 9 then cfg.opcodeMap[op.toNat]
  else match op.toNat with
    | 9 => .equal
    | 10 => if cfg.extCmp then .notEqual else .invalid
    | 11 => if cfg.extCmp then .greaterThan else .invalid
    | 12 => if cfg.extCmp then .lessThan else .invalid
    | 13 => if cfg.extCmp then .greaterOrEqual else .invalid
    | 14 => if cfg.extCmp then .lessOrEqual else .invalid
    | 15 => if cfg.extCmp then .jumpIfEqual else .invalid
    | _ => .invalid

/-- `width(tag)` (R41): the number of bytes an instruction of that tag occupies. -/
def Tag.width : Tag → Nat
  | .halt => 1
  | .invalid => 1
  | .load | .add | .sub | .mul | .div | .jumpAbsolute | .jumpForward | .jumpBackward
  | .equal | .notEqual | .greaterThan | .lessThan | .greaterOrEqual | .lessOrEqual | .jumpIfEqual => 4

/-- The big-endian immediate `b2 ++ b3` (R30, R43). -/
def immediate (b2 b3 : Byte) : Imm16 := b2 ++ b3

/-- Why bytes are not an instruction: each reason is missing bytes, never a value of a byte (R47). -/
inductive DecodeError where
  /-- There is no opcode byte. Raised by `decode` on no bytes; the step turns it into the end-of-program halt (R50). -/
  | noOpcode
  /-- The operand bytes of an instruction of width 4 run past the end. The step turns it into the fault
  TruncatedInstruction (R52). -/
  | truncated
deriving DecidableEq, Repr

/-- The instruction of a tag, from the opcode byte and the three operand bytes of R40. A tag of width 1 uses none of
the operand bytes. -/
def assemble (tag : Tag) (op b1 b2 b3 : Byte) : Instr :=
  match tag with
  | .halt => .hlt
  | .load => .load b1 (immediate b2 b3)
  | .add => .add b1 b2 b3
  | .sub => .sub b1 b2 b3
  | .mul => .mul b1 b2 b3
  | .div => .div b1 b2 b3
  | .jumpAbsolute => .jmp b1
  | .jumpForward => .jmpf b1
  | .jumpBackward => .jmpb b1
  | .equal => .eq b1 b2
  | .notEqual => .neq b1 b2
  | .greaterThan => .gt b1 b2
  | .lessThan => .lt b1 b2
  | .greaterOrEqual => .gte b1 b2
  | .lessOrEqual => .lte b1 b2
  | .jumpIfEqual => .jeq b1
  | .invalid => .invalid op

/-- Decode the first instruction of a byte sequence; the answer holds the bytes after it (R39, R40, R46). -/
def decode (cfg : Config) (bytes : List Byte) : Except DecodeError (Instr × List Byte) :=
  match bytes with
  | [] => .error .noOpcode
  | op :: operands =>
    if (tagOf cfg op).width = 1 then .ok (assemble (tagOf cfg op) op 0 0 0, operands)
    else match operands with
      | b1 :: b2 :: b3 :: rest => .ok (assemble (tagOf cfg op) op b1 b2 b3, rest)
      | _ => .error .truncated

/-- The code of a tag (R46): its place in `OPCODE_MAP`, 9 for Equal, 10 to 15 for the extended tags. -/
def opcodeOf (cfg : Config) (tag : Tag) : Byte :=
  match tag with
  | .halt | .load | .add | .sub | .mul | .div | .jumpAbsolute | .jumpForward | .jumpBackward =>
    BitVec.ofNat 8 (cfg.opcodeMap.toList.idxOf tag)
  | .equal => 0x09
  | .notEqual => 0x0A
  | .greaterThan => 0x0B
  | .lessThan => 0x0C
  | .greaterOrEqual => 0x0D
  | .lessOrEqual => 0x0E
  | .jumpIfEqual => 0x0F
  | .invalid => 0xFF

/-- The bytes of an instruction (R40, R58): the opcode byte, then the operand bytes, padding written as 0. -/
def encode (cfg : Config) (i : Instr) : List Byte :=
  let op := opcodeOf cfg i.tag
  match i with
  | .hlt => [op]
  | .load r imm => [op, r, imm.extractLsb' 8 8, imm.extractLsb' 0 8]
  | .add s1 s2 d => [op, s1, s2, d]
  | .sub s1 s2 d => [op, s1, s2, d]
  | .mul s1 s2 d => [op, s1, s2, d]
  | .div s1 s2 d => [op, s1, s2, d]
  | .jmp r => [op, r, 0, 0]
  | .jmpf r => [op, r, 0, 0]
  | .jmpb r => [op, r, 0, 0]
  | .eq a b => [op, a, b, 0]
  | .neq a b => [op, a, b, 0]
  | .gt a b => [op, a, b, 0]
  | .lt a b => [op, a, b, 0]
  | .gte a b => [op, a, b, 0]
  | .lte a b => [op, a, b, 0]
  | .jeq r => [op, r, 0, 0]
  | .invalid byte => [byte]

/-- The four bytes that a table word of `nbits` bits stands for: byte `k` is bits `8k+7` to `8k`, and the bits above
`nbits` are 0. The core's words are single bytes, the first at the lowest offset (R7, R40). -/
def tableBytes (nbits w : Nat) : List Byte :=
  let v := w % 2 ^ nbits
  [BitVec.ofNat 8 v, BitVec.ofNat 8 (v / 256), BitVec.ofNat 8 (v / 65536), BitVec.ofNat 8 (v / 16777216)]

/-- The instruction this hardware's decoder reads from an opcode-table word. -/
def decodeTableWord (nbits w : Nat) : Option Instr :=
  match decode hardwareConfig (tableBytes nbits w) with
  | .ok (i, _) => some i
  | .error _ => none

end Sys2Proof
end

