-- ==== Sys2Proof/Machine/State.lean ====
section
/-! DEFINITION. The architectural state (10_state.md R13 to R28), all of it and nothing else (R27), as plain data, and
its value after construct-fresh. -/

namespace Sys2Proof.Machine

/-- Why a run ended without an error (R82). -/
inductive HaltReason where
  /-- The Halt instruction (R59). -/
  | explicitHalt
  /-- The counter at or past the end of the program (R50). -/
  | endOfProgram
  /-- An opcode byte that decodes to Invalid (R60). -/
  | unknownOpcode
deriving DecidableEq, Repr

/-- The four faults of the machine (R83). -/
inductive FaultKind where
  /-- A register-index field above 31 (R84). -/
  | registerOutOfRange
  /-- DIV with a divisor of 0 (R85). -/
  | divisionByZero
  /-- JMPF past the end, JMPB below 0 (R86). -/
  | jumpOutOfBounds
  /-- An instruction of width 4 that runs past the end of the program (R87). -/
  | truncatedInstruction
deriving DecidableEq, Repr

/-- The run status (R24). `off` is the offset of the faulting instruction's opcode byte. -/
inductive RunStatus where
  | running
  | halted (reason : HaltReason)
  | faulted (kind : FaultKind) (off : Word)
deriving DecidableEq, Repr

/-- The core's one memory: the program `P` of `L` bytes (R26, R29). `length` is `L`, at most 2^32 - 1 by its type
(D14). `cells` lists the bytes of `P` that are not 0x00, addresses rising; an offset below `L` that is not listed holds
0x00, and an offset at or past `L` holds nothing (R33). The canonical form is `Memory.wf` (log 1). -/
structure Memory where
  length : Fin (2 ^ 32)
  cells  : List Host.Cell
deriving DecidableEq, Repr

/-- The state of the core (R28). -/
structure State where
  /-- x[0] to x[31] (R13). -/
  regs    : Vector Word 32
  /-- The program counter, a byte offset (R17). -/
  pc      : Word
  /-- The comparison flag (R21). -/
  flag    : Bool
  /-- The remainder slot (R23). -/
  rem     : Word
  /-- The run status (R24). -/
  status  : RunStatus
  /-- The program (R26). -/
  program : Memory
deriving DecidableEq, Repr

/-- The reasons the MODEL stops with a fault. The machine's own faults (R83) are no stops of the model: a step that
faults answers a next state whose `status` says so (R88, R90). -/
inductive Fault where
  /-- Raised by `replaceProgram` only, when the host gives more than 2^32 - 1 bytes, which R95 forbids. Safe: the model
  stops where the spec gives no behaviour (log 4). No instruction and no step raises it. -/
  | programTooLong (bytes : Nat)
deriving DecidableEq, Repr

/-- The reasons the model has no meaning for an instruction. -/
inductive Refusal where
  /-- An arm of `exec` that has no meaning yet. Safe. No arm of this model raises it. -/
  | notModelled (mnemonic : String)
deriving DecidableEq, Repr

/-- The result of a step or of an instruction. -/
abbrev Result := Host.Outcome State Fault Refusal

/-- The empty program (R26). -/
def Memory.empty : Memory := { length := 0, cells := [] }

/-- The machine right after construct-fresh (R105): every field at the value the spec states. -/
def State.reset : State :=
  { regs := Vector.replicate 32 0
    pc := 0
    flag := false
    rem := 0
    status := .running
    program := Memory.empty }

end Sys2Proof.Machine
end

