-- ==== Sys2Proof/Machine/Ops.lean ====
section
/-! DEFINITION. The named operations over the program memory and the registers, and taking a halt or a fault, each as
one shared operation. -/

namespace Sys2Proof.Machine

/-- What an address below `L` that no cell lists holds (log 1: a way of writing the program's bytes, no reset content). -/
def unlistedByte : Byte := 0x00

/-- The byte a list of cells holds at an address. -/
def cellAt : List Host.Cell → Nat → Byte
  | [], _ => unlistedByte
  | (k, b) :: rest, a => if k = a then b else cellAt rest a

/-- `MemRead(a, 1)` (R9): the program byte at offset `a`, nothing at or past `L`. -/
def Memory.read? (m : Memory) (a : Nat) : Option Byte :=
  if a < m.length.val then some (cellAt m.cells a) else none

/-- The bytes at the offsets `a` to `a + n - 1` that exist, in order. -/
def Memory.readBytes (m : Memory) (a : Nat) : Nat → List Byte
  | 0 => []
  | n + 1 =>
    match m.read? a with
    | some b => b :: m.readBytes (a + 1) n
    | none => []

/-- The cells are in canonical form from address `lo` on: addresses rising, below `bound`, and no cell holding what an
unlisted address reads as. -/
def canonicalFrom (bound : Nat) : Nat → List Host.Cell → Bool
  | _, [] => true
  | lo, (a, b) :: rest =>
    decide (lo ≤ a) && decide (a < bound) && decide (b ≠ unlistedByte) && canonicalFrom bound (a + 1) rest

/-- The canonical form of the program memory (log 1). -/
def Memory.wf (m : Memory) : Bool := canonicalFrom m.length.val 0 m.cells

/-- The cells of a byte sequence laid out from an address. -/
def cellsOf : Nat → List Byte → List Host.Cell
  | _, [] => []
  | a, b :: rest => if b = unlistedByte then cellsOf (a + 1) rest else (a, b) :: cellsOf (a + 1) rest

/-- The program memory of a byte sequence: `P[k]` is byte `k`, `L` its length (R26, R33). -/
def Memory.ofBytes (bytes : List Byte) (fits : bytes.length < 2 ^ 32) : Memory :=
  { length := ⟨bytes.length, fits⟩, cells := cellsOf 0 bytes }

/-- Put one byte at an address of a list of cells, keeping the canonical form. -/
def setCell (a : Nat) (b : Byte) : List Host.Cell → List Host.Cell
  | [] => if b = unlistedByte then [] else [(a, b)]
  | (k, c) :: rest =>
    if k < a then (k, c) :: setCell a b rest
    else
      let others := if k = a then rest else (k, c) :: rest
      if b = unlistedByte then others else (a, b) :: others

/-- Put one byte at an address, making the program longer where it does not reach that far. No instruction does this
(R34): it is the load from outside the machine that `State.withFetchWord` stands for (log 5). An offset that no program
can have (2^32 - 1 and above, D14) takes no byte. -/
def Memory.patchByte (a : Nat) (b : Byte) (m : Memory) : Memory :=
  if fits : a + 1 < 2 ^ 32 then
    { length := ⟨max m.length.val (a + 1), by have := m.length.isLt; omega⟩, cells := setCell a b m.cells }
  else m

/-- Put a byte sequence at an address, byte by byte. -/
def Memory.patch : Nat → List Byte → Memory → Memory
  | _, [], m => m
  | a, b :: rest, m => Memory.patch (a + 1) rest (m.patchByte a b)

/-- `x[r]` (R9, R13). -/
def State.reg (s : State) (r : Fin 32) : Word := s.regs[r.val]

/-- `x[r] <- v` (R9, R13): no register is hard-wired. -/
def State.setReg (r : Fin 32) (v : Word) (s : State) : State := { s with regs := s.regs.set r.val v }

/-- `pc <- target` (R9). -/
def State.setPc (target : Word) (s : State) : State := { s with pc := target }

/-- `flag <- b` (R9). -/
def State.setFlag (b : Bool) (s : State) : State := { s with flag := b }

/-- `rem <- v` (R9). -/
def State.setRem (v : Word) (s : State) : State := { s with rem := v }

/-- The sequential advance past an instruction of `width` bytes: `pc <- start + width` (R18), where `start` is `pc`. -/
def State.advance (width : Nat) (s : State) : State := s.setPc (s.pc + BitVec.ofNat 32 width)

/-- `halt(reason)` (R9, R82): the status alone; the rules that halt say what happens to `pc`. -/
def State.halt (reason : HaltReason) (s : State) : State := { s with status := .halted reason }

/-- `raise Fault(kind, start)` (R57, R88): the status records the kind and the offset of the instruction's opcode byte,
`pc` is that offset, nothing else is written. -/
def State.raise (kind : FaultKind) (start : Word) (s : State) : State :=
  { s with status := .faulted kind start, pc := start }

/-- The code of a run status (R24, D16). No behaviour depends on it. -/
def RunStatus.code : RunStatus → Nat
  | .running => 0
  | .halted .explicitHalt => 1
  | .halted .endOfProgram => 2
  | .halted .unknownOpcode => 3
  | .faulted .registerOutOfRange _ => 4
  | .faulted .divisionByZero _ => 5
  | .faulted .jumpOutOfBounds _ => 6
  | .faulted .truncatedInstruction _ => 7

/-- A status is terminal when it is not Running (R24). -/
def RunStatus.terminal : RunStatus → Bool
  | .running => false
  | .halted _ => true
  | .faulted _ _ => true

end Sys2Proof.Machine
end

