-- ==== Sys2Proof/Machine/Operands.lean ====
section
/-! DEFINITION. The operand forms: reading a 32-bit pattern (00_scope.md R8), and the register-index fields with their
range check (30_encoding.md R42, R54). A meaning runs with `s.pc` still at `start`, the offset of its opcode byte
(R10). -/

namespace Sys2Proof.Machine

/-- `as_u32` (R8). -/
def asU32 (v : Word) : Nat := v.toNat

/-- `as_s32` (R8). -/
def asS32 (v : Word) : Int := v.toInt

/-- `wrap32` (R8): the low 32 bits of an integer. -/
def wrap32 (n : Int) : Word := BitVec.ofInt 32 n

/-- `sext_32` (R8, R43). -/
def sext32 (v : Imm16) : Word := v.signExtend 32

/-- One register-index field (R54): a value above 31 makes the instruction fault before it reads or writes anything. -/
def withReg (field : Byte) (s : State) (body : Fin 32 → Result) : Result :=
  if h : field.toNat < 32 then body ⟨field.toNat, h⟩
  else .next (s.raise .registerOutOfRange s.pc)

/-- Two register-index fields, checked in the order b1, b2 (R54). -/
def withReg2 (f1 f2 : Byte) (s : State) (body : Fin 32 → Fin 32 → Result) : Result :=
  withReg f1 s fun r1 => withReg f2 s fun r2 => body r1 r2

/-- Three register-index fields, checked in the order b1, b2, b3 (R54). -/
def withReg3 (f1 f2 f3 : Byte) (s : State) (body : Fin 32 → Fin 32 → Fin 32 → Result) : Result :=
  withReg f1 s fun r1 => withReg f2 s fun r2 => withReg f3 s fun r3 => body r1 r2 r3

end Sys2Proof.Machine
end

