-- ==== Sys2Proof/Machine/Arithmetic.lean ====
section
/-! DEFINITION. The ALU (42_arithmetic.md R62 to R68): the exact integer result, then narrowed to 32 bits. -/

namespace Sys2Proof.Machine

/-- An arithmetic instruction of format RRR (R62): both sources are read from the state the step starts in, the
destination is written, and `pc` moves to the next instruction. -/
def arithmetic (op : Int → Int → Int) (s1 s2 d : Byte) (s : State) : Result :=
  withReg3 s1 s2 d s fun i j k =>
    .next ((s.setReg k (wrap32 (op (asS32 (s.reg i)) (asS32 (s.reg j))))).advance 4)

/-- ADD (R64). -/
def execAdd (s1 s2 d : Byte) (s : State) : Result := arithmetic (fun a b => a + b) s1 s2 d s

/-- SUB (R65). -/
def execSub (s1 s2 d : Byte) (s : State) : Result := arithmetic (fun a b => a - b) s1 s2 d s

/-- MUL (R66). -/
def execMul (s1 s2 d : Byte) (s : State) : Result := arithmetic (fun a b => a * b) s1 s2 d s

/-- The quotient, rounded toward zero (R63, D10; log 16). -/
def quotient (a b : Int) : Int := Int.tdiv a b

/-- The remainder `a - q * b`: 0 or with the sign of the dividend (R63). -/
def remainder (a b : Int) : Int := a - quotient a b * b

/-- The pattern the remainder slot takes: two's complement (R68, D11; log 17). -/
def remainderPattern (r : Int) : Word := wrap32 r

/-- DIV (R67): a divisor of 0 faults with nothing written; otherwise the quotient goes to the destination and the
remainder to `rem`. -/
def execDiv (s1 s2 d : Byte) (s : State) : Result :=
  withReg3 s1 s2 d s fun i j k =>
    let a := asS32 (s.reg i)
    let b := asS32 (s.reg j)
    if b = 0 then .next (s.raise .divisionByZero s.pc)
    else
      .next (((s.setReg k (wrap32 (quotient a b))).setRem (remainderPattern (remainder a b))).advance 4)

end Sys2Proof.Machine
end

