-- ==== Sys2Proof/Machine/Flags.lean ====
section
/-! DEFINITION. The comparison flag: the condition of each comparison (44_compare.md R75). The orderings are signed
(R74, D3; log 8). -/

namespace Sys2Proof.Machine

def condEqual (p q : Word) : Bool := decide (asS32 p = asS32 q)
def condNotEqual (p q : Word) : Bool := decide (asS32 p ≠ asS32 q)
def condGreaterThan (p q : Word) : Bool := decide (asS32 p > asS32 q)
def condLessThan (p q : Word) : Bool := decide (asS32 p < asS32 q)
def condGreaterOrEqual (p q : Word) : Bool := decide (asS32 p ≥ asS32 q)
def condLessOrEqual (p q : Word) : Bool := decide (asS32 p ≤ asS32 q)

/-- A comparison of format RRP (R74): `flag <- cond(x[a], x[b])`, then past the padding byte to the next instruction. -/
def comparison (cond : Word → Word → Bool) (a b : Byte) (s : State) : Result :=
  withReg2 a b s fun p q => .next ((s.setFlag (cond (s.reg p) (s.reg q))).advance 4)

end Sys2Proof.Machine
end

