-- ==== Sys2Proof/Machine/Compare.lean ====
section
/-! DEFINITION. The six comparisons (44_compare.md R74 to R81). -/

namespace Sys2Proof.Machine

/-- EQ (R76). -/
def execEq (a b : Byte) (s : State) : Result := comparison condEqual a b s

/-- NEQ (R77). -/
def execNeq (a b : Byte) (s : State) : Result := comparison condNotEqual a b s

/-- GT (R78). -/
def execGt (a b : Byte) (s : State) : Result := comparison condGreaterThan a b s

/-- LT (R79). -/
def execLt (a b : Byte) (s : State) : Result := comparison condLessThan a b s

/-- GTE (R80). -/
def execGte (a b : Byte) (s : State) : Result := comparison condGreaterOrEqual a b s

/-- LTE (R81). -/
def execLte (a b : Byte) (s : State) : Result := comparison condLessOrEqual a b s

end Sys2Proof.Machine
end

