-- ==== Sys2Proof/Machine/Halt.lean ====
section
/-! DEFINITION. Halt and the unknown opcode (40_halt.md R59, R60). -/

namespace Sys2Proof.Machine

/-- HLT (R59). -/
def execHlt (s : State) : Result := .next ((s.advance 1).halt .explicitHalt)

/-- An opcode byte that decodes to Invalid (R60): a graceful halt, not a fault. -/
def execInvalid (s : State) : Result := .next ((s.advance 1).halt .unknownOpcode)

end Sys2Proof.Machine
end

