-- ==== Sys2Proof/Machine/Jumps.lean ====
section
/-! DEFINITION. The jumps (43_jumps.md R69 to R73). The register is read as `u32`, and the base of a relative jump is
`start`, the offset of its own opcode byte (R69, C1; log 11 and 12). -/

namespace Sys2Proof.Machine

/-- JMP (R70): no check of the target. -/
def execJmp (r : Byte) (s : State) : Result :=
  withReg r s fun i => .next (s.setPc (s.reg i))

/-- JMPF (R71): the target is computed before any narrowing, and one past `L` faults. -/
def execJmpf (r : Byte) (s : State) : Result :=
  withReg r s fun i =>
    let target := asU32 s.pc + asU32 (s.reg i)
    if s.program.length.val < target then .next (s.raise .jumpOutOfBounds s.pc)
    else .next (s.setPc (BitVec.ofNat 32 target))

/-- JMPB (R72): a distance greater than `start` faults. -/
def execJmpb (r : Byte) (s : State) : Result :=
  withReg r s fun i =>
    if asU32 s.pc < asU32 (s.reg i) then .next (s.raise .jumpOutOfBounds s.pc)
    else .next (s.setPc (BitVec.ofNat 32 (asU32 s.pc - asU32 (s.reg i))))

/-- JEQ (R73): with the flag, an absolute jump; without it, the next instruction. The index is checked either way. -/
def execJeq (r : Byte) (s : State) : Result :=
  withReg r s fun i => if s.flag then .next (s.setPc (s.reg i)) else .next (s.advance 4)

end Sys2Proof.Machine
end

