-- ==== Sys2Proof/Machine/Load.lean ====
section
/-! DEFINITION. Load immediate (41_load.md R61). -/

namespace Sys2Proof.Machine

/-- LOAD (R61). -/
def execLoad (r : Byte) (imm : Imm16) (s : State) : Result :=
  withReg r s fun d => .next ((s.setReg d (sext32 imm)).advance 4)

end Sys2Proof.Machine
end

