-- ==== Sys2Proof/Machine/Dispatch.lean ====
section
/-! DEFINITION. The meaning of each instruction (30_encoding.md R55): one arm per constructor. -/

namespace Sys2Proof.Machine

/-- The body of an instruction, run with `s.pc` at its opcode byte (R10, R55), its register-index fields checked first (R54). -/
def exec (i : Instr) (s : State) : Host.Outcome State Fault Refusal :=
  match i with
  | .hlt => Sys2Proof.Machine.execHlt s
  | .load r imm => Sys2Proof.Machine.execLoad r imm s
  | .add s1 s2 d => Sys2Proof.Machine.execAdd s1 s2 d s
  | .sub s1 s2 d => Sys2Proof.Machine.execSub s1 s2 d s
  | .mul s1 s2 d => Sys2Proof.Machine.execMul s1 s2 d s
  | .div s1 s2 d => Sys2Proof.Machine.execDiv s1 s2 d s
  | .jmp r => Sys2Proof.Machine.execJmp r s
  | .jmpf r => Sys2Proof.Machine.execJmpf r s
  | .jmpb r => Sys2Proof.Machine.execJmpb r s
  | .eq a b => Sys2Proof.Machine.execEq a b s
  | .neq a b => Sys2Proof.Machine.execNeq a b s
  | .gt a b => Sys2Proof.Machine.execGt a b s
  | .lt a b => Sys2Proof.Machine.execLt a b s
  | .gte a b => Sys2Proof.Machine.execGte a b s
  | .lte a b => Sys2Proof.Machine.execLte a b s
  | .jeq r => Sys2Proof.Machine.execJeq r s
  | .invalid _ => Sys2Proof.Machine.execInvalid s

end Sys2Proof.Machine
end

