-- ==== Sys2Proof/Machine/Cycle.lean ====
section
/-! DEFINITION. The step cycle (30_encoding.md R49 to R57), for any parameters `OPCODE_MAP` and `EXT_CMP`. -/

namespace Sys2Proof.Machine

/-- The instruction whose opcode byte stands at an offset (R50 to R53): nothing where there is no opcode byte; truncated
where its width runs past `L`, before any operand byte is read; otherwise what its `width` bytes decode to. -/
def fetch (cfg : Config) (m : Memory) (start : Nat) : Except DecodeError Instr :=
  match m.read? start with
  | none => .error .noOpcode
  | some op =>
    if m.length.val < start + (tagOf cfg op).width then .error .truncated
    else
      match decode cfg (m.readBytes start (tagOf cfg op).width) with
      | .ok (i, _) => .ok i
      | .error e => .error e

/-- One step (R57): the checks in the order of R56. -/
def cycle (cfg : Config) (s : State) : Result :=
  match s.status with
  | .halted _ => .next s
  | .faulted _ _ => .next s
  | .running =>
    match fetch cfg s.program s.pc.toNat with
    | .error .noOpcode => .next (s.halt .endOfProgram)
    | .error .truncated => .next (s.raise .truncatedInstruction s.pc)
    | .ok i => exec i s

end Sys2Proof.Machine
end

