-- ==== Sys2Proof/Machine/Step.lean ====
section
/-! DEFINITION. One step of this hardware, and where the next instruction is fetched. -/

namespace Sys2Proof.Machine

/-- One step with this hardware's parameters (R57, R96). -/
def step (s : State) : Host.Outcome State Fault Refusal := cycle hardwareConfig s

/-- The state with an instruction's four bytes at the counter, the program reaching at least past them, and the status
Running, so that the next step runs it. It stands for the host's load of a program (R95, R106; log 5). -/
def State.withFetchWord (s : State) (nbits w : Nat) : State :=
  { s with status := .running, program := Memory.patch s.pc.toNat (tableBytes nbits w) s.program }

end Sys2Proof.Machine
end

