-- ==== Sys2Proof/Machine/HostOps.lean ====
section
/-! DEFINITION. The operations the core offers its host (60_exceptions.md R94 to R99). They act between steps and are
no instructions (R93). -/

namespace Sys2Proof.Machine

/-- construct-fresh (R94, R105). -/
def constructFresh : State := State.reset

/-- replace-program (R95): `P` and `L` replaced, the status Running, the rest kept. More than 2^32 - 1 bytes are a
misuse that R95 forbids, and stop the model by name (log 4). -/
def replaceProgram (bytes : List Byte) (s : State) : Result :=
  if fits : bytes.length < 2 ^ 32 then
    .next { s with program := Memory.ofBytes bytes fits, status := .running }
  else .fault (.programTooLong bytes.length)

/-- What run_once reports (R96). -/
inductive Report where
  | continue
  | stop
deriving DecidableEq, Repr

/-- The report on the state after a step: Stop exactly when its status is terminal (R96). -/
def reportOf (s : State) : Report := if s.status.terminal then .stop else .continue

/-- run_once (R96): one step, and its report. -/
def runOnce (cfg : Config) (s : State) : Host.Outcome (State × Report) Fault Refusal :=
  match cycle cfg s with
  | .next t => .next (t, reportOf t)
  | .fault f => .fault f
  | .refused r => .refused r

/-- run with a step budget (R97, R99): steps until one reports Stop, at most `budget` of them; the host's stop predicate
is tested between steps, on the state after a step that reports Continue. The returned status is the state's `status`. -/
def runBounded (cfg : Config) (stopNow : State → Bool) : Nat → State → Result
  | 0, s => .next s
  | budget + 1, s =>
    match runOnce cfg s with
    | .next (t, .stop) => .next t
    | .next (t, .continue) => if stopNow t then .next t else runBounded cfg stopNow budget t
    | .fault f => .fault f
    | .refused r => .refused r

/-- run without a budget (R97), as a relation, since a run need not end (R111): it returns in `t` when some number of
steps ends in a step that reports Stop. -/
def RunReturns (cfg : Config) (s t : State) : Prop :=
  ∃ n, runBounded cfg (fun _ => false) n s = .next t ∧ t.status.terminal = true ∧ 0 < n

/-- The read-only accessors (R98); the register accessor is `State.reg`. -/
def readRegister (s : State) (r : Fin 32) : Word := s.reg r
def readFlag (s : State) : Bool := s.flag
def readRemainder (s : State) : Word := s.rem
def readCounter (s : State) : Word := s.pc
def readStatus (s : State) : RunStatus := s.status

end Sys2Proof.Machine
end

