-- ==== Sys2Proof/Safety.lean ====
section
/-! DEFINITION. What the claims speak of: bytes at an offset, a fault taken by a step, the invariant of the machine, and
the states the host can reach. -/

namespace Sys2Proof.Machine

/-- The program holds these bytes at an offset and the ones after it. -/
def Memory.holds (m : Memory) (at_ : Nat) : List Byte → Prop
  | [] => True
  | b :: rest => m.read? at_ = some b ∧ m.holds (at_ + 1) rest

/-- A step or an instruction started in `s` ends in the fault `kind` at the instruction's own offset, with no partial
effect: registers, flag, remainder slot and program as before (R88). It says nothing of `pc` after the fault, which
93_implementation_defined.md I5 asks a claim not to read. -/
def FaultsWith (kind : FaultKind) (s : State) (outcome : Result) : Prop :=
  ∃ t, outcome = .next t ∧ t.status = .faulted kind s.pc ∧ t.regs = s.regs ∧ t.flag = s.flag ∧ t.rem = s.rem ∧
    t.program = s.program

/-- The outcome of `n` steps one after another. -/
def steps (cfg : Config) : Nat → State → Result
  | 0, s => .next s
  | n + 1, s =>
    match cycle cfg s with
    | .next t => steps cfg n t
    | .fault f => .fault f
    | .refused r => .refused r

/-- The number an `s32` holds after narrowing an exact integer to 32 bits, written as R8 writes it. -/
def narrowed (n : Int) : Int := if n % 2 ^ 32 < 2 ^ 31 then n % 2 ^ 32 else n % 2 ^ 32 - 2 ^ 32

/-- What every instruction of width 4 shares (R40, R42, R52, R54), for the instruction `mk b1 b2 b3` of a tag: four bytes
whose opcode byte has the tag decode to it, whatever `OPCODE_MAP` says that byte is; a step on such an opcode byte whose
instruction runs past the end of the program takes the fault TruncatedInstruction; and a register-index field above 31
makes it take the fault RegisterOutOfRange. The rules of these instructions name both faults; that a truncated
instruction faults, and does so before its fields are checked, is the spec's own decision (D7, D9; log 13 and 15). -/
def HasForm (tag : Tag) (mk : Byte → Byte → Byte → Instr) : Prop :=
  (∀ cfg op b1 b2 b3 rest, tagOf cfg op = tag →
    decode cfg (op :: b1 :: b2 :: b3 :: rest) = .ok (mk b1 b2 b3, rest)) ∧
  (∀ (cfg : Config) (s : State) op, s.status = .running → s.program.read? s.pc.toNat = some op →
    tagOf cfg op = tag → s.program.length.val < s.pc.toNat + 4 →
    FaultsWith .truncatedInstruction s (cycle cfg s)) ∧
  (∀ s b1 b2 b3, (∃ f ∈ (mk b1 b2 b3).regFields, 31 < f.toNat) →
    FaultsWith .registerOutOfRange s (exec (mk b1 b2 b3) s))

/-- An arithmetic instruction of format RRR (R62): it has its form, and for legal indices it completes, with the exact
result narrowed to 32 bits in the destination, `pc` past its four bytes, and nothing else changed. -/
def ArithmeticRule (tag : Tag) (mk : Byte → Byte → Byte → Instr) (op : Int → Int → Int) : Prop :=
  HasForm tag mk ∧
  ∀ (s1 s2 d : Byte) (s : State) (h1 : s1.toNat < 32) (h2 : s2.toNat < 32) (h3 : d.toNat < 32),
    ∃ v : Word, v.toInt = narrowed (op (s.regs[s1.toNat]).toInt (s.regs[s2.toNat]).toInt) ∧
      exec (mk s1 s2 d) s = .next { s with regs := s.regs.set d.toNat v, pc := s.pc + 4 }

/-- A comparison of format RRP (R74): it has its form, and for legal indices it completes, with the condition on the two
signed values in `flag`, `pc` past its four bytes whatever the outcome, and nothing else changed. -/
def CompareRule (tag : Tag) (mk : Byte → Byte → Instr) (cond : Int → Int → Prop) : Prop :=
  HasForm tag (fun b1 b2 _ => mk b1 b2) ∧
  ∀ (a b : Byte) (s : State) (h1 : a.toNat < 32) (h2 : b.toNat < 32),
    ∃ f : Bool, (f = true ↔ cond (s.regs[a.toNat]).toInt (s.regs[b.toNat]).toInt) ∧
      exec (mk a b) s = .next { s with flag := f, pc := s.pc + 4 }

/-- The tags of the six comparisons, which write the flag (R21). -/
def comparisonTags : List Tag :=
  [.equal, .notEqual, .greaterThan, .lessThan, .greaterOrEqual, .lessOrEqual]

/-- A terminal status is explained by the state it stands in: a halt by the byte before the counter or by the counter
being past the end, a fault by the instruction at the recorded offset and the registers it reads. -/
def Explained (cfg : Config) (s : State) : Prop :=
  match s.status with
  | .running => True
  | .halted .explicitHalt => ∃ k op, s.pc.toNat = k + 1 ∧ s.program.read? k = some op ∧ tagOf cfg op = .halt
  | .halted .unknownOpcode => ∃ k op, s.pc.toNat = k + 1 ∧ s.program.read? k = some op ∧ tagOf cfg op = .invalid
  | .halted .endOfProgram => s.program.length.val ≤ s.pc.toNat
  | .faulted .truncatedInstruction off =>
      ∃ op, s.program.read? off.toNat = some op ∧ (tagOf cfg op).width = 4 ∧ s.program.length.val < off.toNat + 4
  | .faulted .registerOutOfRange off =>
      ∃ i, fetch cfg s.program off.toNat = .ok i ∧ ∃ f ∈ i.regFields, 31 < f.toNat
  | .faulted .divisionByZero off =>
      ∃ s1 s2 d, fetch cfg s.program off.toNat = .ok (.div s1 s2 d) ∧ ∃ h : s2.toNat < 32, s.regs[s2.toNat] = 0
  | .faulted .jumpOutOfBounds off =>
      ∃ r, ∃ h : r.toNat < 32,
        (fetch cfg s.program off.toNat = .ok (.jmpf r) ∧
          s.program.length.val < off.toNat + (s.regs[r.toNat]).toNat) ∨
        (fetch cfg s.program off.toNat = .ok (.jmpb r) ∧ off.toNat < (s.regs[r.toNat]).toNat)

/-- The invariant: the program memory is in canonical form, and a terminal status is explained. -/
def Inv (cfg : Config) (s : State) : Prop := s.program.wf = true ∧ Explained cfg s

/-- The states that the host's operations and the core's steps reach from construct-fresh (R94 to R99). -/
inductive Reachable (cfg : Config) : State → Prop where
  | fresh : Reachable cfg constructFresh
  | replaced {s t : State} (bytes : List Byte) : Reachable cfg s → replaceProgram bytes s = .next t → Reachable cfg t
  | stepped {s t : State} : Reachable cfg s → cycle cfg s = .next t → Reachable cfg t

/-- A state in which no fault stands: what a safe run of a program stays in. -/
def NoFault (s : State) : Prop := ∀ kind off, s.status ≠ .faulted kind off

end Sys2Proof.Machine
end

