-- ==== Sys2Proof/Certificates/Slice0/Obligations.lean ====
section
/-! DEFINITION. The statements for the provers. Each docstring names the rule or the decision it formalises. A statement
that rests on a decision the spec marks as its own (92_eei_decisions.md D<n>) says so. -/

open Sys2Proof Sys2Proof.Machine

/-! ### Reset and the host's operations -/

/-- R105: after construct-fresh every register is 0, the counter 0, the flag false, the remainder slot 0, the status
Running and the program empty. -/
def Obligations.ResetIsConstructFresh : Prop :=
  (∀ r : Fin 32, State.reset.regs[r.val] = 0) ∧ State.reset.pc = 0 ∧ State.reset.flag = false ∧
  State.reset.rem = 0 ∧ State.reset.status = .running ∧ State.reset.program.length.val = 0 ∧
  (∀ a, State.reset.program.read? a = none) ∧ constructFresh = State.reset

/-- R106: run on a fresh machine halts at once with EndOfProgram, with nothing but the status changed, and returns no
other state. -/
def Obligations.FreshRunHaltsAtOnce : Prop :=
  ∀ (cfg : Config) (t : State),
    RunReturns cfg constructFresh t ↔ t = { State.reset with status := .halted .endOfProgram }

/-- R95, with D13 (the status becomes Running) and D14 (at most 2^32 - 1 bytes; what happens beyond is the model's own
choice, log 4): replace-program installs exactly the given bytes and keeps the registers, the counter, the flag and the
remainder slot. -/
def Obligations.ReplaceProgramInstallsTheBytes : Prop :=
  ∀ (bytes : List Byte) (s : State),
    (bytes.length < 2 ^ 32 →
      ∃ t, replaceProgram bytes s = .next t ∧ t.program.length.val = bytes.length ∧
        (∀ a, t.program.read? a = bytes[a]?) ∧ t.status = .running ∧ t.regs = s.regs ∧ t.pc = s.pc ∧
        t.flag = s.flag ∧ t.rem = s.rem) ∧
    (2 ^ 32 ≤ bytes.length → replaceProgram bytes s = .fault (.programTooLong bytes.length))

/-- R38: after replace-program the next step fetches from the new program, at the unchanged counter: where the new bytes
from there on decode to an instruction, the next step runs it. -/
def Obligations.NextStepRunsTheReplacedProgram : Prop :=
  ∀ (cfg : Config) (bytes : List Byte) (s t : State) (i : Instr) (rest : List Byte),
    replaceProgram bytes s = .next t → decode cfg (bytes.drop s.pc.toNat) = .ok (i, rest) →
    t.pc = s.pc ∧ cycle cfg t = exec i t

/-- R96: run_once executes exactly one step, and reports Stop exactly when the status is terminal after it. -/
def Obligations.RunOnceReportsStopWhenTerminal : Prop :=
  ∀ (cfg : Config) (s : State),
    ∃ t report, runOnce cfg s = .next (t, report) ∧ cycle cfg s = .next t ∧
      (report = .stop ↔ t.status ≠ .running)

/-- R97: run returns in exactly the terminal state that repeated steps end in. Any positive number of steps may be named,
steps past the first Stop included, since a step in a terminal status changes nothing (R49, which is decision D12,
log 18). That a run is the relation `RunReturns` is the model's own reading (log 21). -/
def Obligations.RunReturnsTheTerminalState : Prop :=
  ∀ (cfg : Config) (s t : State),
    RunReturns cfg s t ↔ t.status ≠ .running ∧ ∃ n, steps cfg (n + 1) s = .next t

/-- R99 (D19): a run whose budget runs out while the status is still Running is in the state after as many steps as the
budget; exhausting the budget writes nothing. -/
def Obligations.ExhaustedBudgetIsThatManySteps : Prop :=
  ∀ (cfg : Config) (n : Nat) (s t : State),
    runBounded cfg (fun _ => false) n s = .next t → t.status = .running → steps cfg n s = .next t

/-- R111 and the corner cases of R71 and R72: a relative jump by 0 jumps to itself, so run never returns from it. -/
def Obligations.ZeroDistanceJumpLoopsForever : Prop :=
  ∀ (cfg : Config) (s : State) (r : Byte) (h : r.toNat < 32),
    s.status = .running → s.regs[r.toNat] = 0 →
    (fetch cfg s.program s.pc.toNat = .ok (.jmpf r) ∨ fetch cfg s.program s.pc.toNat = .ok (.jmpb r)) →
    cycle cfg s = .next s ∧ ∀ t, ¬ RunReturns cfg s t

/-! ### The step cycle -/

/-- R51, R53, R55: when the bytes at the counter of a running machine decode to an instruction, the step is that
instruction's body; the step of this hardware is the cycle with its own parameters. -/
def Obligations.StepRunsTheDecodedInstruction : Prop :=
  (∀ (cfg : Config) (s : State) (bytes : List Byte) (i : Instr) (rest : List Byte),
    s.status = .running → s.program.holds s.pc.toNat bytes → decode cfg bytes = .ok (i, rest) →
    cycle cfg s = exec i s) ∧
  ∀ s, step s = cycle hardwareConfig s

/-- R50: with the counter at or past the end, the step writes only the status, Halted(EndOfProgram), and reports stop;
the empty program is one such. -/
def Obligations.EndOfProgramHalts : Prop :=
  (∀ (cfg : Config) (s : State), s.status = .running → s.program.length.val ≤ s.pc.toNat →
    runOnce cfg s = .next ({ s with status := .halted .endOfProgram }, .stop)) ∧
  (∀ (cfg : Config) (s : State), s.status = .running → s.program.length.val = 0 →
    runOnce cfg s = .next ({ s with status := .halted .endOfProgram }, .stop))

/-- R49 (D12): a step in a terminal status changes nothing and reports stop. -/
def Obligations.TerminalStatusIsFinal : Prop :=
  ∀ (cfg : Config) (s : State), s.status ≠ .running → runOnce cfg s = .next (s, .stop)

/-- R83, R90 and R96: every step answers a state. No state makes the step stop the model: a fault is a returned result,
never an abort. -/
def Obligations.EveryStepAnswersAState : Prop :=
  (∀ (cfg : Config) (s : State), ∃ t, cycle cfg s = .next t) ∧ ∀ (i : Instr) (s : State), ∃ t, exec i s = .next t

/-- R18, R19: an instruction that neither faults nor jumps moves the counter past its own bytes, without wrapping and no
further than the end of the program. JEQ with the flag false is one such (R73; its layout and fall-through are decision
D4, log 9); that the length check comes before the body is D7 and D9 (log 13 and 15), and the one byte of HLT and
(Invalid) is C4 (log 27). -/
def Obligations.SequentialAdvanceNeverWraps : Prop :=
  ∀ (cfg : Config) (s t : State) (i : Instr),
    s.status = .running → fetch cfg s.program s.pc.toNat = .ok i → cycle cfg s = .next t →
    i.tag ∉ [Tag.jumpAbsolute, Tag.jumpForward, Tag.jumpBackward] → (i.tag = .jumpIfEqual → s.flag = false) →
    NoFault t →
    t.pc.toNat = s.pc.toNat + i.tag.width ∧ t.pc.toNat ≤ s.program.length.val

/-! ### Halts and faults -/

/-- R84: RegisterOutOfRange is raised exactly when a register-index field of the instruction is above 31. -/
def Obligations.RegisterOutOfRangeExactly : Prop :=
  (∀ (i : Instr) (s : State), (∃ f ∈ i.regFields, 31 < f.toNat) → FaultsWith .registerOutOfRange s (exec i s)) ∧
  (∀ (i : Instr) (s t : State) (off : Word), s.status = .running → exec i s = .next t →
    t.status = .faulted .registerOutOfRange off → ∃ f ∈ i.regFields, 31 < f.toNat)

/-- R85: DivisionByZero is raised by DIV when its divisor register holds 0, and by nothing else. -/
def Obligations.DivisionByZeroExactly : Prop :=
  (∀ (s1 s2 d : Byte) (s : State) (_ : s1.toNat < 32) (h : s2.toNat < 32) (_ : d.toNat < 32),
    s.regs[s2.toNat] = 0 → FaultsWith .divisionByZero s (exec (.div s1 s2 d) s)) ∧
  (∀ (i : Instr) (s t : State) (off : Word), s.status = .running → exec i s = .next t →
    t.status = .faulted .divisionByZero off →
    ∃ s1 s2 d, i = .div s1 s2 d ∧ ∃ h : s2.toNat < 32, s.regs[s2.toNat] = 0)

/-- R86: JumpOutOfBounds is raised by JMPF when the target is past `L`, by JMPB when the distance exceeds the counter,
and by nothing else; JMP and JEQ never raise it. The unsigned reading of the distance is decision D6 (log 11), the base of
a relative jump C1 (log 12), and that JMP and JEQ are unchecked is C2 (log 25) and D4 (log 9). -/
def Obligations.JumpOutOfBoundsExactly : Prop :=
  (∀ (r : Byte) (s : State) (h : r.toNat < 32),
    (s.program.length.val < s.pc.toNat + (s.regs[r.toNat]).toNat →
      FaultsWith .jumpOutOfBounds s (exec (.jmpf r) s)) ∧
    (s.pc.toNat < (s.regs[r.toNat]).toNat → FaultsWith .jumpOutOfBounds s (exec (.jmpb r) s))) ∧
  (∀ (i : Instr) (s t : State) (off : Word), s.status = .running → exec i s = .next t →
    t.status = .faulted .jumpOutOfBounds off →
    ∃ r, ∃ h : r.toNat < 32,
      (i = .jmpf r ∧ s.program.length.val < s.pc.toNat + (s.regs[r.toNat]).toNat) ∨
      (i = .jmpb r ∧ s.pc.toNat < (s.regs[r.toNat]).toNat))

/-- R52 and R87 (D7): TruncatedInstruction is raised exactly when an instruction of width 4 starts at an offset with
fewer than four bytes left, before any register-index field is checked (D9). -/
def Obligations.TruncatedInstructionExactly : Prop :=
  (∀ (cfg : Config) (s : State) (op : Byte), s.status = .running → s.program.read? s.pc.toNat = some op →
    (tagOf cfg op).width = 4 → s.program.length.val < s.pc.toNat + 4 →
    FaultsWith .truncatedInstruction s (cycle cfg s)) ∧
  (∀ (cfg : Config) (s t : State) (off : Word), s.status = .running → cycle cfg s = .next t →
    t.status = .faulted .truncatedInstruction off →
    ∃ op, s.program.read? s.pc.toNat = some op ∧ (tagOf cfg op).width = 4 ∧
      s.program.length.val < s.pc.toNat + 4)

/-- R88: a fault of a step writes only the status, with the offset of the faulting instruction, and the counter.
That the counter is then that offset is decision D8 (log 14), which 93_implementation_defined.md I5 marks as one that
other claims must not rest on. -/
def Obligations.FaultsArePrecise : Prop :=
  ∀ (cfg : Config) (s t : State) (kind : FaultKind) (off : Word),
    s.status = .running → cycle cfg s = .next t → t.status = .faulted kind off →
    off = s.pc ∧ t = { s with status := .faulted kind s.pc, pc := s.pc }

/-- R82: each of the three halts arises exactly from its own cause, and a step that halts writes only the status, and the
counter as the table gives. The one byte that HLT and (Invalid) advance by is C4 (log 27). -/
def Obligations.HaltReasonsExactly : Prop :=
  ∀ (cfg : Config) (s t : State) (reason : HaltReason),
    s.status = .running → cycle cfg s = .next t →
    (t.status = .halted reason ↔
      match reason with
      | .explicitHalt => ∃ op, s.program.read? s.pc.toNat = some op ∧ tagOf cfg op = .halt
      | .endOfProgram => s.program.length.val ≤ s.pc.toNat
      | .unknownOpcode => ∃ op, s.program.read? s.pc.toNat = some op ∧ tagOf cfg op = .invalid) ∧
    (t.status = .halted reason →
      match reason with
      | .explicitHalt => t = { s with status := .halted .explicitHalt, pc := s.pc + 1 }
      | .endOfProgram => t = { s with status := .halted .endOfProgram }
      | .unknownOpcode => t = { s with status := .halted .unknownOpcode, pc := s.pc + 1 })

/-- R24 (D16): the codes of the run status. -/
def Obligations.RunStatusCodes : Prop :=
  RunStatus.running.code = 0 ∧ (RunStatus.halted .explicitHalt).code = 1 ∧
  (RunStatus.halted .endOfProgram).code = 2 ∧ (RunStatus.halted .unknownOpcode).code = 3 ∧
  ∀ off, (RunStatus.faulted .registerOutOfRange off).code = 4 ∧ (RunStatus.faulted .divisionByZero off).code = 5 ∧
    (RunStatus.faulted .jumpOutOfBounds off).code = 6 ∧ (RunStatus.faulted .truncatedInstruction off).code = 7

/-! ### The instructions -/

/-- R59: HLT is one byte long whatever follows it, never truncated, and ends the run with the counter one further. -/
def Obligations.HaltInstructionEndsTheRun : Prop :=
  (∀ s, exec .hlt s = .next { s with pc := s.pc + 1, status := .halted .explicitHalt }) ∧
  (∀ cfg op rest, tagOf cfg op = .halt → decode cfg (op :: rest) = .ok (.hlt, rest)) ∧
  (∀ (cfg : Config) (s : State) op, s.status = .running → s.program.read? s.pc.toNat = some op →
    tagOf cfg op = .halt →
    runOnce cfg s = .next ({ s with pc := s.pc + 1, status := .halted .explicitHalt }, .stop))

/-- R60: an opcode byte that decodes to Invalid is one byte long, never truncated, and ends the run gracefully with
Halted(UnknownOpcode) and the counter one further. -/
def Obligations.UnknownOpcodeEndsTheRun : Prop :=
  (∀ op s, exec (.invalid op) s = .next { s with pc := s.pc + 1, status := .halted .unknownOpcode }) ∧
  (∀ cfg op rest, tagOf cfg op = .invalid → decode cfg (op :: rest) = .ok (.invalid op, rest)) ∧
  (∀ (cfg : Config) (s : State) op, s.status = .running → s.program.read? s.pc.toNat = some op →
    tagOf cfg op = .invalid →
    runOnce cfg s = .next ({ s with pc := s.pc + 1, status := .halted .unknownOpcode }, .stop))

/-- R61, R30, R43: LOAD puts the big-endian 16-bit immediate, sign-extended, into its register.
That a truncated instruction faults, before its fields are checked, is D7 and D9 (log 13
and 15). -/
def Obligations.LoadWritesTheSignExtendedImmediate : Prop :=
  HasForm .load (fun b1 b2 b3 => .load b1 (b2 ++ b3)) ∧
  ∀ (r b2 b3 : Byte) (s : State) (h : r.toNat < 32),
    ∃ v : Word,
      v.toInt = (if b2.toNat * 256 + b3.toNat < 2 ^ 15 then ((b2.toNat * 256 + b3.toNat : Nat) : Int)
        else ((b2.toNat * 256 + b3.toNat : Nat) : Int) - 2 ^ 16) ∧
      exec (.load r (b2 ++ b3)) s = .next { s with regs := s.regs.set r.toNat v, pc := s.pc + 4 }

/-- R64: ADD. That signed overflow wraps is C3 (log 24). That a truncated instruction faults, before its fields are checked, is D7 and D9 (log 13
and 15). -/
def Obligations.AddWritesTheWrappedSum : Prop := ArithmeticRule .add .add (fun a b => a + b)

/-- R65: SUB. That signed overflow wraps is C3 (log 24). That a truncated instruction faults, before its fields are checked, is D7 and D9 (log 13
and 15). -/
def Obligations.SubWritesTheWrappedDifference : Prop := ArithmeticRule .sub .sub (fun a b => a - b)

/-- R66: MUL. That signed overflow wraps is C3 (log 24). That a truncated instruction faults, before its fields are checked, is D7 and D9 (log 13
and 15). -/
def Obligations.MulWritesTheWrappedProduct : Prop := ArithmeticRule .mul .mul (fun a b => a * b)

/-- R63: the results of ADD, SUB and MUL are the same when both operands are read as unsigned. -/
def Obligations.SignednessDoesNotChangeAddSubMul : Prop :=
  ∀ (s1 s2 d : Byte) (s t : State) (h1 : s1.toNat < 32) (h2 : s2.toNat < 32) (h3 : d.toNat < 32),
    (exec (.add s1 s2 d) s = .next t →
      (t.regs[d.toNat]).toNat = ((s.regs[s1.toNat]).toNat + (s.regs[s2.toNat]).toNat) % 2 ^ 32) ∧
    (exec (.sub s1 s2 d) s = .next t →
      ((t.regs[d.toNat]).toNat : Int) =
        (((s.regs[s1.toNat]).toNat : Int) - ((s.regs[s2.toNat]).toNat : Int)) % 2 ^ 32) ∧
    (exec (.mul s1 s2 d) s = .next t →
      (t.regs[d.toNat]).toNat = ((s.regs[s1.toNat]).toNat * (s.regs[s2.toNat]).toNat) % 2 ^ 32)

/-- R67, R63: DIV with a divisor other than 0 completes: the quotient and the remainder are the one pair with
`a = q * b + r`, `|r| < |b|` and `r` 0 or with the sign of `a` (rounding toward zero is D10); the destination gets the
quotient narrowed to 32 bits, the remainder slot the remainder's 32-bit pattern (D11). That a truncated instruction
faults, before its fields are checked, is D7 and D9 (log 13 and 15). -/
def Obligations.DivWritesQuotientAndRemainder : Prop :=
  HasForm .div .div ∧
  ∀ (s1 s2 d : Byte) (s : State) (h1 : s1.toNat < 32) (h2 : s2.toNat < 32) (h3 : d.toNat < 32),
    s.regs[s2.toNat] ≠ 0 →
    ∃ (q r : Int) (v w : Word),
      (s.regs[s1.toNat]).toInt = q * (s.regs[s2.toNat]).toInt + r ∧
      |r| < |(s.regs[s2.toNat]).toInt| ∧ (r = 0 ∨ r.sign = (s.regs[s1.toNat]).toInt.sign) ∧
      v.toInt = narrowed q ∧ (w.toNat : Int) = r % 2 ^ 32 ∧
      exec (.div s1 s2 d) s = .next { s with regs := s.regs.set d.toNat v, rem := w, pc := s.pc + 4 }

/-- R68 (D11) and the corner case of R67 (D10): the four sign combinations, and -2^31 / -1. Each row is a dividend, a
divisor, the quotient and the remainder slot. -/
def Obligations.DivisionTableOfSigns : Prop :=
  ∀ row ∈ ([(7, 2, 3, 1), (-7, 2, -3, 4294967295), (7, -2, -3, 1), (-7, -2, 3, 4294967295),
      (-2147483648, -1, -2147483648, 0)] : List (Int × Int × Int × Nat)),
    ∀ (s1 s2 d : Byte) (s : State) (h1 : s1.toNat < 32) (h2 : s2.toNat < 32) (h3 : d.toNat < 32),
      (s.regs[s1.toNat]).toInt = row.1 → (s.regs[s2.toNat]).toInt = row.2.1 →
      ∃ t, exec (.div s1 s2 d) s = .next t ∧ (t.regs[d.toNat]).toInt = row.2.2.1 ∧ t.rem.toNat = row.2.2.2

/-- R70 (length 4 is D5, no check C2, the truncation fault D7 and D9): JMP writes the register's unsigned value to the counter, whatever it is, and nothing else. -/
def Obligations.JumpAbsoluteWritesTheCounter : Prop :=
  HasForm .jumpAbsolute (fun b1 _ _ => .jmp b1) ∧
  ∀ (r : Byte) (s : State) (h : r.toNat < 32),
    ∃ p : Word, p.toNat = (s.regs[r.toNat]).toNat ∧ exec (.jmp r) s = .next { s with pc := p }

/-- R71 (length 4 is D5, the unsigned reading D6, the base C1, the truncation fault D7 and D9): JMPF adds the register's unsigned value to the offset of
its own opcode byte; a target of at most `L` completes, one past `L` faults. -/
def Obligations.JumpForwardAddsToItsOwnOffset : Prop :=
  HasForm .jumpForward (fun b1 _ _ => .jmpf b1) ∧
  ∀ (r : Byte) (s : State) (h : r.toNat < 32),
    (s.pc.toNat + (s.regs[r.toNat]).toNat ≤ s.program.length.val →
      ∃ p : Word, p.toNat = s.pc.toNat + (s.regs[r.toNat]).toNat ∧ exec (.jmpf r) s = .next { s with pc := p }) ∧
    (s.program.length.val < s.pc.toNat + (s.regs[r.toNat]).toNat →
      FaultsWith .jumpOutOfBounds s (exec (.jmpf r) s))

/-- R72 (length 4 is D5, the unsigned reading D6, the base C1, the truncation fault D7 and D9): JMPB subtracts the register's unsigned value from the
offset of its own opcode byte; a distance of at most that offset completes, a greater one faults. -/
def Obligations.JumpBackwardSubtractsFromItsOwnOffset : Prop :=
  HasForm .jumpBackward (fun b1 _ _ => .jmpb b1) ∧
  ∀ (r : Byte) (s : State) (h : r.toNat < 32),
    ((s.regs[r.toNat]).toNat ≤ s.pc.toNat →
      ∃ p : Word, p.toNat + (s.regs[r.toNat]).toNat = s.pc.toNat ∧ exec (.jmpb r) s = .next { s with pc := p }) ∧
    (s.pc.toNat < (s.regs[r.toNat]).toNat → FaultsWith .jumpOutOfBounds s (exec (.jmpb r) s))

/-- R73 (D4; no check C2, the truncation fault D7 and D9): JEQ with the flag jumps as JMP does; without it, it goes to the next instruction; the flag stays. -/
def Obligations.JumpIfEqualFollowsTheFlag : Prop :=
  HasForm .jumpIfEqual (fun b1 _ _ => .jeq b1) ∧
  ∀ (r : Byte) (s : State) (h : r.toNat < 32),
    (s.flag = true → ∃ p : Word, p.toNat = (s.regs[r.toNat]).toNat ∧ exec (.jeq r) s = .next { s with pc := p }) ∧
    (s.flag = false → exec (.jeq r) s = .next { s with pc := s.pc + 4 })

/-- R76: EQ. That a truncated instruction faults, before its fields are checked, is D7 and D9 (log 13
and 15). -/
def Obligations.EqualWritesTheFlag : Prop := CompareRule .equal .eq (fun p q => p = q)

/-- R77 to R81 (operand order, signedness and layout are D3, the truncation fault D7 and D9): NEQ, GT, LT, GTE and LTE. -/
def Obligations.ExtendedComparisonsWriteTheFlag : Prop :=
  CompareRule .notEqual .neq (fun p q => p ≠ q) ∧ CompareRule .greaterThan .gt (fun p q => p > q) ∧
  CompareRule .lessThan .lt (fun p q => p < q) ∧ CompareRule .greaterOrEqual .gte (fun p q => p ≥ q) ∧
  CompareRule .lessOrEqual .lte (fun p q => p ≤ q)

/-- R75, the last column but one: a register compared with itself. -/
def Obligations.SelfComparisonResults : Prop :=
  ∀ (a : Byte) (s : State), a.toNat < 32 →
    ∀ row ∈ [(Instr.eq a a, true), (Instr.neq a a, false), (Instr.gt a a, false), (Instr.lt a a, false),
      (Instr.gte a a, true), (Instr.lte a a, true)],
      exec row.1 s = .next { s with flag := row.2, pc := s.pc + 4 }

/-! ### What is left unchanged, and what is never read -/

/-- R15: an instruction writes no general register but its destination: LOAD's register operand, and the third operand
of ADD, SUB, MUL and DIV. HLT, (Invalid), the jumps and the comparisons write none. -/
def Obligations.OnlyTheDestinationRegisterIsWritten : Prop :=
  ∀ (i : Instr) (s t : State) (r : Fin 32), exec i s = .next t →
    (∀ d, i.destination = some d → d.toNat ≠ r.val) → t.regs[r.val] = s.regs[r.val]

/-- R21: the flag is written by the six comparisons and by nothing else: not by LOAD, ADD, SUB, MUL, DIV, JMP, JMPF, JMPB,
JEQ, HLT or (Invalid), not by the halt at the end of the program, and not by any fault. -/
def Obligations.OnlyComparisonsWriteTheFlag : Prop :=
  (∀ (i : Instr) (s t : State), exec i s = .next t → i.tag ∉ comparisonTags → t.flag = s.flag) ∧
  (∀ (cfg : Config) (s t : State), cycle cfg s = .next t →
    (∀ i, fetch cfg s.program s.pc.toNat = .ok i → i.tag ∉ comparisonTags) → t.flag = s.flag) ∧
  (∀ (cfg : Config) (s t : State) kind off, s.status = .running → cycle cfg s = .next t →
    t.status = .faulted kind off → t.flag = s.flag)

/-- R23: the remainder slot is written by DIV alone, and only when DIV does not fault. -/
def Obligations.OnlyDivWritesTheRemainder : Prop :=
  (∀ (i : Instr) (s t : State), exec i s = .next t → i.tag ≠ .div → t.rem = s.rem) ∧
  (∀ (cfg : Config) (s t : State), cycle cfg s = .next t →
    (∀ s1 s2 d, fetch cfg s.program s.pc.toNat ≠ .ok (.div s1 s2 d)) → t.rem = s.rem) ∧
  (∀ (i : Instr) (s t : State) kind off, s.status = .running → exec i s = .next t →
    t.status = .faulted kind off → t.rem = s.rem)

/-- R34: no instruction and no step writes the program: every offset reads as before and the length is the same. -/
def Obligations.NoStepWritesTheProgram : Prop :=
  (∀ (i : Instr) (s t : State), exec i s = .next t →
    t.program.length = s.program.length ∧ ∀ a, t.program.read? a = s.program.read? a) ∧
  (∀ (cfg : Config) (s t : State), cycle cfg s = .next t →
    t.program.length = s.program.length ∧ ∀ a, t.program.read? a = s.program.read? a)

/-- R24, R25: which instructions can leave a status other than the one they started in: HLT and (Invalid) by halting, any
with a register-index field by RegisterOutOfRange, DIV by DivisionByZero, JMPF and JMPB by JumpOutOfBounds. -/
def Obligations.StatusWrittenOnlyByHaltsAndFaults : Prop :=
  ∀ (i : Instr) (s t : State), exec i s = .next t →
    t.status = s.status ∨ (i.tag = .halt ∧ t.status = .halted .explicitHalt) ∨
    (i.tag = .invalid ∧ t.status = .halted .unknownOpcode) ∨
    (i.regFields ≠ [] ∧ t.status = .faulted .registerOutOfRange s.pc) ∨
    (i.tag = .div ∧ t.status = .faulted .divisionByZero s.pc) ∨
    ((i.tag = .jumpForward ∨ i.tag = .jumpBackward) ∧ t.status = .faulted .jumpOutOfBounds s.pc)

/-- R21: only JEQ reads the flag. On a machine that runs anything else, changing the flag before the step changes at
most the flag after it; without the extension nothing decodes to JEQ. -/
def Obligations.OnlyJumpIfEqualReadsTheFlag : Prop :=
  (∀ (cfg : Config) (s t : State) (b : Bool),
    (∀ r, fetch cfg s.program s.pc.toNat ≠ .ok (.jeq r)) → cycle cfg s = .next t →
    ∃ t', cycle cfg { s with flag := b } = .next t' ∧ { t' with flag := t.flag } = t ∧
      (t'.flag = t.flag ∨ (t.flag = s.flag ∧ t'.flag = b))) ∧
  (∀ (cfg : Config) (m : Memory) (start : Nat) r, cfg.extCmp = false → fetch cfg m start ≠ .ok (.jeq r))

/-- R23, R100: nothing reads the remainder slot. Changing it before a step changes at most the slot after it. -/
def Obligations.NothingReadsTheRemainder : Prop :=
  ∀ (cfg : Config) (s t : State) (v : Word), cycle cfg s = .next t →
    ∃ t', cycle cfg { s with rem := v } = .next t' ∧ { t' with rem := t.rem } = t ∧
      (t'.rem = t.rem ∨ (t.rem = s.rem ∧ t'.rem = v))

/-! ### Decoding and encoding -/

/-- R40, R42, R43, R46: for every `OPCODE_MAP` and `EXT_CMP`, the encoding of a well-formed instruction, followed by any
bytes, decodes to that instruction and leaves exactly those bytes. -/
def Obligations.DecodeOfEncodeIsTheInstruction : Prop :=
  ∀ (cfg : Config) (i : Instr) (rest : List Byte), i.wellFormed cfg = true →
    decode cfg (encode cfg i ++ rest) = .ok (i, rest)

/-- R39 to R46: whatever bytes decode to an instruction begin with as many bytes as its tag is wide, and these are its
encoding but for the padding bytes (R44), which the encoder writes as 0 (R58, D17). -/
def Obligations.DecodedBytesAreTheEncodingButForPadding : Prop :=
  ∀ (cfg : Config) (bytes : List Byte) (i : Instr) (rest : List Byte), decode cfg bytes = .ok (i, rest) →
    ∃ own : List Byte, bytes = own ++ rest ∧ own.length = i.tag.width ∧
      (encode cfg i).length = i.tag.width ∧
      ∀ k, (k < 1 + i.regFields.length ∨ i.tag = .load) → own[k]? = (encode cfg i)[k]?

/-- R47: decoding rejects bytes only where some are missing: there is no opcode byte, or an instruction of width 4 has
fewer than four bytes. No value of a byte is rejected. -/
def Obligations.DecodeRejectsOnlyMissingBytes : Prop :=
  ∀ (cfg : Config) (bytes : List Byte),
    (decode cfg bytes = .error .noOpcode ↔ bytes = []) ∧
    (decode cfg bytes = .error .truncated ↔
      ∃ op rest, bytes = op :: rest ∧ (tagOf cfg op).width = 4 ∧ rest.length < 3)

/-- R46 with the default `OPCODE_MAP` (D1) and `EXT_CMP` (D2): the decode table of this hardware, all 256 bytes. -/
def Obligations.DecodeTableOfThisHardware : Prop :=
  ∀ op : Byte, tagOf hardwareConfig op =
    ([.halt, .load, .add, .sub, .mul, .div, .jumpAbsolute, .jumpForward, .jumpBackward, .equal, .notEqual, .greaterThan,
      .lessThan, .greaterOrEqual, .lessOrEqual, .jumpIfEqual] : List Tag).getD op.toNat .invalid

/-- R46, R48 (D2): for every `OPCODE_MAP`, 9 is Equal, 10 to 15 are the extended tags with `EXT_CMP` and Invalid without,
and 16 to 255 are Invalid. -/
def Obligations.CodesFromNineOnAreFixed : Prop :=
  ∀ (cfg : Config) (op : Byte), 9 ≤ op.toNat →
    tagOf cfg op =
      (if op.toNat = 9 then Tag.equal
       else if cfg.extCmp then
        ([.notEqual, .greaterThan, .lessThan, .greaterOrEqual, .lessOrEqual, .jumpIfEqual] : List Tag).getD
          (op.toNat - 10) .invalid
       else Tag.invalid)

/-- R6, R46 (D1): for every `OPCODE_MAP`, each of the nine mapped tags is the tag of exactly one byte, and that byte is
at most 8. -/
def Obligations.EachMappedTagHasOneCode : Prop :=
  ∀ (cfg : Config) (tag : Tag), tag ∈ mappedTags →
    ∃ op : Byte, op.toNat ≤ 8 ∧ tagOf cfg op = tag ∧ ∀ op', tagOf cfg op' = tag → op' = op

/-- R44 (D5 for the jumps): a padding byte has no effect: not the third operand byte of a comparison, not the second and
third of a jump, for any values of them, those above 31 included. -/
def Obligations.PaddingBytesHaveNoEffect : Prop :=
  ∀ (cfg : Config) (op b1 b2 b3 p2 p3 : Byte) (rest : List Byte),
    (tagOf cfg op ∈ comparisonTags →
      decode cfg (op :: b1 :: b2 :: b3 :: rest) = decode cfg (op :: b1 :: b2 :: p3 :: rest)) ∧
    (tagOf cfg op ∈ [Tag.jumpAbsolute, Tag.jumpForward, Tag.jumpBackward, Tag.jumpIfEqual] →
      decode cfg (op :: b1 :: b2 :: b3 :: rest) = decode cfg (op :: b1 :: p2 :: p3 :: rest))

/-- The encodings of R40 and R58 written out, with the default `OPCODE_MAP` (D1) and `EXT_CMP` (D2): one word of each
family. The JEQ word's layout is D4, the GTE word's D3, the JMPF word's length D5. -/
def Obligations.WrittenOutWordsDecode : Prop :=
  decode hardwareConfig [0x00] = .ok (.hlt, []) ∧
  decode hardwareConfig [0xFF, 0x00] = .ok (.invalid 0xFF, [0x00]) ∧
  decode hardwareConfig [0x01, 0x05, 0xFF, 0xF9] = .ok (.load 5 0xFFF9, []) ∧
  decode hardwareConfig [0x05, 0x02, 0x04, 0x05] = .ok (.div 2 4 5, []) ∧
  decode hardwareConfig [0x07, 0x03, 0x00, 0x00] = .ok (.jmpf 3, []) ∧
  decode hardwareConfig [0x0F, 0x04, 0x00, 0x00] = .ok (.jeq 4, []) ∧
  decode hardwareConfig [0x0D, 0x01, 0x02, 0x00] = .ok (.gte 1 2, [])

/-! ### Invariants and the program memory -/

/-- The invariant holds at reset. The canonical form is the model's own (log 1). -/
def Obligations.ResetMeetsTheInvariant : Prop := ∀ cfg, Inv cfg State.reset

/-- Every step keeps the invariant, from every state that meets it, for every `OPCODE_MAP` and `EXT_CMP`: the program
memory stays in canonical form (log 1), and a terminal status is explained by the program, the counter and the registers
(R50, R59, R60, R84 to R87, R49). -/
def Obligations.EveryStepKeepsTheInvariant : Prop :=
  (∀ (cfg : Config) (s t : State), Inv cfg s → cycle cfg s = .next t → Inv cfg t) ∧
  (∀ s t : State, Inv hardwareConfig s → step s = .next t → Inv hardwareConfig t)

/-- Every state the host can reach, through any programs it installs and any steps it makes, meets the invariant. -/
def Obligations.ReachableStatesMeetTheInvariant : Prop :=
  ∀ (cfg : Config) (s : State), Reachable cfg s → Inv cfg s

/-- Two program memories in canonical form with the same length and the same bytes are the same data (log 1). -/
def Obligations.CanonicalMemoriesAreEqualData : Prop :=
  ∀ m m' : Memory, m.wf = true → m'.wf = true → m.length = m'.length → (∀ a, m.read? a = m'.read? a) → m = m'

/-- The model's own (log 5): an instruction word placed at the counter is what the next step runs. -/
def Obligations.PlacedWordIsRunNext : Prop :=
  ∀ (s : State) (nbits w : Nat) (i : Instr), s.program.wf = true → s.pc.toNat + 4 < 2 ^ 32 →
    decodeTableWord nbits w = some i → step (s.withFetchWord nbits w) = exec i (s.withFetchWord nbits w)
end

