-- ==== Sys2Proof/Laws/State.lean ====
section
/-! SUPPORT. One lemma per field per update of the state, so that no proof unfolds a record update. -/

namespace Sys2Proof.Machine

variable (s : State)

@[simp] theorem State.setReg_regs (r : Fin 32) (v : Word) : (s.setReg r v).regs = s.regs.set r.val v := rfl
@[simp] theorem State.setReg_pc (r : Fin 32) (v : Word) : (s.setReg r v).pc = s.pc := rfl
@[simp] theorem State.setReg_flag (r : Fin 32) (v : Word) : (s.setReg r v).flag = s.flag := rfl
@[simp] theorem State.setReg_rem (r : Fin 32) (v : Word) : (s.setReg r v).rem = s.rem := rfl
@[simp] theorem State.setReg_status (r : Fin 32) (v : Word) : (s.setReg r v).status = s.status := rfl
@[simp] theorem State.setReg_program (r : Fin 32) (v : Word) : (s.setReg r v).program = s.program := rfl

@[simp] theorem State.setPc_regs (v : Word) : (s.setPc v).regs = s.regs := rfl
@[simp] theorem State.setPc_pc (v : Word) : (s.setPc v).pc = v := rfl
@[simp] theorem State.setPc_flag (v : Word) : (s.setPc v).flag = s.flag := rfl
@[simp] theorem State.setPc_rem (v : Word) : (s.setPc v).rem = s.rem := rfl
@[simp] theorem State.setPc_status (v : Word) : (s.setPc v).status = s.status := rfl
@[simp] theorem State.setPc_program (v : Word) : (s.setPc v).program = s.program := rfl

@[simp] theorem State.setFlag_regs (b : Bool) : (s.setFlag b).regs = s.regs := rfl
@[simp] theorem State.setFlag_pc (b : Bool) : (s.setFlag b).pc = s.pc := rfl
@[simp] theorem State.setFlag_flag (b : Bool) : (s.setFlag b).flag = b := rfl
@[simp] theorem State.setFlag_rem (b : Bool) : (s.setFlag b).rem = s.rem := rfl
@[simp] theorem State.setFlag_status (b : Bool) : (s.setFlag b).status = s.status := rfl
@[simp] theorem State.setFlag_program (b : Bool) : (s.setFlag b).program = s.program := rfl

@[simp] theorem State.setRem_regs (v : Word) : (s.setRem v).regs = s.regs := rfl
@[simp] theorem State.setRem_pc (v : Word) : (s.setRem v).pc = s.pc := rfl
@[simp] theorem State.setRem_flag (v : Word) : (s.setRem v).flag = s.flag := rfl
@[simp] theorem State.setRem_rem (v : Word) : (s.setRem v).rem = v := rfl
@[simp] theorem State.setRem_status (v : Word) : (s.setRem v).status = s.status := rfl
@[simp] theorem State.setRem_program (v : Word) : (s.setRem v).program = s.program := rfl

@[simp] theorem State.advance_regs (n : Nat) : (s.advance n).regs = s.regs := rfl
@[simp] theorem State.advance_pc (n : Nat) : (s.advance n).pc = s.pc + BitVec.ofNat 32 n := rfl
@[simp] theorem State.advance_flag (n : Nat) : (s.advance n).flag = s.flag := rfl
@[simp] theorem State.advance_rem (n : Nat) : (s.advance n).rem = s.rem := rfl
@[simp] theorem State.advance_status (n : Nat) : (s.advance n).status = s.status := rfl
@[simp] theorem State.advance_program (n : Nat) : (s.advance n).program = s.program := rfl

@[simp] theorem State.halt_regs (r : HaltReason) : (s.halt r).regs = s.regs := rfl
@[simp] theorem State.halt_pc (r : HaltReason) : (s.halt r).pc = s.pc := rfl
@[simp] theorem State.halt_flag (r : HaltReason) : (s.halt r).flag = s.flag := rfl
@[simp] theorem State.halt_rem (r : HaltReason) : (s.halt r).rem = s.rem := rfl
@[simp] theorem State.halt_status (r : HaltReason) : (s.halt r).status = .halted r := rfl
@[simp] theorem State.halt_program (r : HaltReason) : (s.halt r).program = s.program := rfl

@[simp] theorem State.raise_regs (k : FaultKind) (off : Word) : (s.raise k off).regs = s.regs := rfl
@[simp] theorem State.raise_pc (k : FaultKind) (off : Word) : (s.raise k off).pc = off := rfl
@[simp] theorem State.raise_flag (k : FaultKind) (off : Word) : (s.raise k off).flag = s.flag := rfl
@[simp] theorem State.raise_rem (k : FaultKind) (off : Word) : (s.raise k off).rem = s.rem := rfl
@[simp] theorem State.raise_status (k : FaultKind) (off : Word) : (s.raise k off).status = .faulted k off := rfl
@[simp] theorem State.raise_program (k : FaultKind) (off : Word) : (s.raise k off).program = s.program := rfl

@[simp] theorem State.reg_setReg_same (r : Fin 32) (v : Word) : (s.setReg r v).reg r = v := by
  simp [State.reg]

theorem State.reg_setReg_other (r q : Fin 32) (v : Word) (h : r ≠ q) : (s.setReg r v).reg q = s.reg q := by
  have hv : r.val ≠ q.val := fun e => h (Fin.ext e)
  simp [State.reg, hv]

@[simp] theorem State.reg_setPc (v : Word) (q : Fin 32) : (s.setPc v).reg q = s.reg q := rfl
@[simp] theorem State.reg_setFlag (b : Bool) (q : Fin 32) : (s.setFlag b).reg q = s.reg q := rfl
@[simp] theorem State.reg_setRem (v : Word) (q : Fin 32) : (s.setRem v).reg q = s.reg q := rfl
@[simp] theorem State.reg_advance (n : Nat) (q : Fin 32) : (s.advance n).reg q = s.reg q := rfl
@[simp] theorem State.reg_halt (r : HaltReason) (q : Fin 32) : (s.halt r).reg q = s.reg q := rfl
@[simp] theorem State.reg_raise (k : FaultKind) (off : Word) (q : Fin 32) : (s.raise k off).reg q = s.reg q := rfl

/-- A status is terminal exactly when it is not Running (R24). -/
theorem RunStatus.terminal_iff (st : RunStatus) : st.terminal = true ↔ st ≠ .running := by
  cases st <;> simp [RunStatus.terminal]

end Sys2Proof.Machine
end

