-- ==== Sys2Proof/Laws/Operands.lean ====
section
/-! SUPPORT. What the shared operations of the meanings can do: the register-field check, the arithmetic shape and the
comparison shape. Later proofs cite these instead of unfolding. -/

namespace Sys2Proof.Machine

theorem withReg_in_range (f : Byte) (s : State) (body : Fin 32 → Result) (h : f.toNat < 32) :
    withReg f s body = body ⟨f.toNat, h⟩ := by
  simp [withReg, h]

theorem withReg_out_of_range (f : Byte) (s : State) (body : Fin 32 → Result) (h : 31 < f.toNat) :
    withReg f s body = .next (s.raise .registerOutOfRange s.pc) := by
  simp [withReg, show ¬ f.toNat < 32 by omega]

/-- One field: either it is out of range and the instruction faults, or the body runs. -/
theorem withReg_cases (f : Byte) (s : State) (body : Fin 32 → Result) :
    (31 < f.toNat ∧ withReg f s body = .next (s.raise .registerOutOfRange s.pc)) ∨
    (∃ h : f.toNat < 32, withReg f s body = body ⟨f.toNat, h⟩) := by
  by_cases h : f.toNat < 32
  · exact .inr ⟨h, withReg_in_range f s body h⟩
  · exact .inl ⟨by omega, withReg_out_of_range f s body (by omega)⟩

theorem withReg2_in_range (f1 f2 : Byte) (s : State) (body : Fin 32 → Fin 32 → Result)
    (h1 : f1.toNat < 32) (h2 : f2.toNat < 32) :
    withReg2 f1 f2 s body = body ⟨f1.toNat, h1⟩ ⟨f2.toNat, h2⟩ := by
  simp [withReg2, withReg, h1, h2]

/-- Two fields: either one is out of range and the instruction faults, or the body runs. -/
theorem withReg2_cases (f1 f2 : Byte) (s : State) (body : Fin 32 → Fin 32 → Result) :
    ((31 < f1.toNat ∨ 31 < f2.toNat) ∧ withReg2 f1 f2 s body = .next (s.raise .registerOutOfRange s.pc)) ∨
    (∃ (h1 : f1.toNat < 32) (h2 : f2.toNat < 32),
      withReg2 f1 f2 s body = body ⟨f1.toNat, h1⟩ ⟨f2.toNat, h2⟩) := by
  rcases withReg_cases f1 s (fun r1 => withReg f2 s fun r2 => body r1 r2) with ⟨h1, e1⟩ | ⟨h1, e1⟩
  · exact .inl ⟨.inl h1, e1⟩
  · rcases withReg_cases f2 s (fun r2 => body ⟨f1.toNat, h1⟩ r2) with ⟨h2, e2⟩ | ⟨h2, e2⟩
    · exact .inl ⟨.inr h2, e1.trans e2⟩
    · exact .inr ⟨h1, h2, e1.trans e2⟩

theorem withReg3_in_range (f1 f2 f3 : Byte) (s : State) (body : Fin 32 → Fin 32 → Fin 32 → Result)
    (h1 : f1.toNat < 32) (h2 : f2.toNat < 32) (h3 : f3.toNat < 32) :
    withReg3 f1 f2 f3 s body = body ⟨f1.toNat, h1⟩ ⟨f2.toNat, h2⟩ ⟨f3.toNat, h3⟩ := by
  simp [withReg3, withReg, h1, h2, h3]

/-- Three fields: either one is out of range and the instruction faults, or the body runs. -/
theorem withReg3_cases (f1 f2 f3 : Byte) (s : State) (body : Fin 32 → Fin 32 → Fin 32 → Result) :
    ((31 < f1.toNat ∨ 31 < f2.toNat ∨ 31 < f3.toNat) ∧
      withReg3 f1 f2 f3 s body = .next (s.raise .registerOutOfRange s.pc)) ∨
    (∃ (h1 : f1.toNat < 32) (h2 : f2.toNat < 32) (h3 : f3.toNat < 32),
      withReg3 f1 f2 f3 s body = body ⟨f1.toNat, h1⟩ ⟨f2.toNat, h2⟩ ⟨f3.toNat, h3⟩) := by
  rcases withReg_cases f1 s (fun r1 => withReg2 f2 f3 s fun r2 r3 => body r1 r2 r3) with ⟨h1, e1⟩ | ⟨h1, e1⟩
  · exact .inl ⟨.inl h1, e1⟩
  · rcases withReg2_cases f2 f3 s (fun r2 r3 => body ⟨f1.toNat, h1⟩ r2 r3) with ⟨h2, e2⟩ | ⟨h2, h3, e2⟩
    · exact .inl ⟨.inr h2, e1.trans e2⟩
    · exact .inr ⟨h1, h2, h3, e1.trans e2⟩

/-- The arithmetic shape (R62), for legal indices. -/
theorem arithmetic_in_range (op : Int → Int → Int) (s1 s2 d : Byte) (s : State)
    (h1 : s1.toNat < 32) (h2 : s2.toNat < 32) (h3 : d.toNat < 32) :
    arithmetic op s1 s2 d s =
      .next ((s.setReg ⟨d.toNat, h3⟩
        (wrap32 (op (asS32 (s.reg ⟨s1.toNat, h1⟩)) (asS32 (s.reg ⟨s2.toNat, h2⟩))))).advance 4) :=
  withReg3_in_range s1 s2 d s _ h1 h2 h3

/-- The comparison shape (R74), for legal indices. -/
theorem comparison_in_range (cond : Word → Word → Bool) (a b : Byte) (s : State)
    (h1 : a.toNat < 32) (h2 : b.toNat < 32) :
    comparison cond a b s =
      .next ((s.setFlag (cond (s.reg ⟨a.toNat, h1⟩) (s.reg ⟨b.toNat, h2⟩))).advance 4) :=
  withReg2_in_range a b s _ h1 h2

/-- `wrap32` read back as a signed number is the balanced remainder (R8). -/
theorem asS32_wrap32 (n : Int) : asS32 (wrap32 n) = n.bmod (2 ^ 32) := by
  simp [asS32, wrap32, BitVec.toInt_ofInt]

/-- `wrap32` read back as an unsigned number is the remainder modulo 2^32 (R8). -/
theorem asU32_wrap32 (n : Int) : (asU32 (wrap32 n) : Int) = n % 2 ^ 32 := by
  have h : (0 : Int) ≤ n % 2 ^ 32 := Int.emod_nonneg n (by decide)
  simpa [asU32, wrap32, BitVec.toNat_ofInt] using h

end Sys2Proof.Machine
end

