-- ==== Sys2Proof/Laws/Exec.lean ====
section
/-! SUPPORT. Everything an instruction can do, said once: `Did s i t` lists the ways instruction `i` takes state `s` to
state `t`, and `exec_did` says that `exec` does nothing else. Proofs about all instructions cite it and split on `Did`. -/

namespace Sys2Proof.Machine

/-- The ways an instruction can take a state to the next. -/
inductive Did (s : State) : Instr → State → Prop where
  | badRegister {i : Instr} (h : ∃ f ∈ i.regFields, 31 < f.toNat) : Did s i (s.raise .registerOutOfRange s.pc)
  | hlt : Did s .hlt ((s.advance 1).halt .explicitHalt)
  | invalid (op : Byte) : Did s (.invalid op) ((s.advance 1).halt .unknownOpcode)
  | load (r : Byte) (imm : Imm16) (h : r.toNat < 32) :
      Did s (.load r imm) ((s.setReg ⟨r.toNat, h⟩ (sext32 imm)).advance 4)
  | add (s1 s2 d : Byte) (h1 : s1.toNat < 32) (h2 : s2.toNat < 32) (h3 : d.toNat < 32) :
      Did s (.add s1 s2 d) ((s.setReg ⟨d.toNat, h3⟩
        (wrap32 (asS32 (s.reg ⟨s1.toNat, h1⟩) + asS32 (s.reg ⟨s2.toNat, h2⟩)))).advance 4)
  | sub (s1 s2 d : Byte) (h1 : s1.toNat < 32) (h2 : s2.toNat < 32) (h3 : d.toNat < 32) :
      Did s (.sub s1 s2 d) ((s.setReg ⟨d.toNat, h3⟩
        (wrap32 (asS32 (s.reg ⟨s1.toNat, h1⟩) - asS32 (s.reg ⟨s2.toNat, h2⟩)))).advance 4)
  | mul (s1 s2 d : Byte) (h1 : s1.toNat < 32) (h2 : s2.toNat < 32) (h3 : d.toNat < 32) :
      Did s (.mul s1 s2 d) ((s.setReg ⟨d.toNat, h3⟩
        (wrap32 (asS32 (s.reg ⟨s1.toNat, h1⟩) * asS32 (s.reg ⟨s2.toNat, h2⟩)))).advance 4)
  | divByZero (s1 s2 d : Byte) (h1 : s1.toNat < 32) (h2 : s2.toNat < 32) (h3 : d.toNat < 32)
      (hz : asS32 (s.reg ⟨s2.toNat, h2⟩) = 0) :
      Did s (.div s1 s2 d) (s.raise .divisionByZero s.pc)
  | div (s1 s2 d : Byte) (h1 : s1.toNat < 32) (h2 : s2.toNat < 32) (h3 : d.toNat < 32)
      (hz : asS32 (s.reg ⟨s2.toNat, h2⟩) ≠ 0) :
      Did s (.div s1 s2 d) (((s.setReg ⟨d.toNat, h3⟩
        (wrap32 (quotient (asS32 (s.reg ⟨s1.toNat, h1⟩)) (asS32 (s.reg ⟨s2.toNat, h2⟩))))).setRem
        (remainderPattern (remainder (asS32 (s.reg ⟨s1.toNat, h1⟩)) (asS32 (s.reg ⟨s2.toNat, h2⟩))))).advance 4)
  | jmp (r : Byte) (h : r.toNat < 32) : Did s (.jmp r) (s.setPc (s.reg ⟨r.toNat, h⟩))
  | jmpf (r : Byte) (h : r.toNat < 32)
      (hl : asU32 s.pc + asU32 (s.reg ⟨r.toNat, h⟩) ≤ s.program.length.val) :
      Did s (.jmpf r) (s.setPc (BitVec.ofNat 32 (asU32 s.pc + asU32 (s.reg ⟨r.toNat, h⟩))))
  | jmpfOut (r : Byte) (h : r.toNat < 32)
      (hl : s.program.length.val < asU32 s.pc + asU32 (s.reg ⟨r.toNat, h⟩)) :
      Did s (.jmpf r) (s.raise .jumpOutOfBounds s.pc)
  | jmpb (r : Byte) (h : r.toNat < 32) (hl : asU32 (s.reg ⟨r.toNat, h⟩) ≤ asU32 s.pc) :
      Did s (.jmpb r) (s.setPc (BitVec.ofNat 32 (asU32 s.pc - asU32 (s.reg ⟨r.toNat, h⟩))))
  | jmpbOut (r : Byte) (h : r.toNat < 32) (hl : asU32 s.pc < asU32 (s.reg ⟨r.toNat, h⟩)) :
      Did s (.jmpb r) (s.raise .jumpOutOfBounds s.pc)
  | jeqTaken (r : Byte) (h : r.toNat < 32) (hf : s.flag = true) : Did s (.jeq r) (s.setPc (s.reg ⟨r.toNat, h⟩))
  | jeqNot (r : Byte) (h : r.toNat < 32) (hf : s.flag = false) : Did s (.jeq r) (s.advance 4)
  | eq (a b : Byte) (h1 : a.toNat < 32) (h2 : b.toNat < 32) :
      Did s (.eq a b) ((s.setFlag (condEqual (s.reg ⟨a.toNat, h1⟩) (s.reg ⟨b.toNat, h2⟩))).advance 4)
  | neq (a b : Byte) (h1 : a.toNat < 32) (h2 : b.toNat < 32) :
      Did s (.neq a b) ((s.setFlag (condNotEqual (s.reg ⟨a.toNat, h1⟩) (s.reg ⟨b.toNat, h2⟩))).advance 4)
  | gt (a b : Byte) (h1 : a.toNat < 32) (h2 : b.toNat < 32) :
      Did s (.gt a b) ((s.setFlag (condGreaterThan (s.reg ⟨a.toNat, h1⟩) (s.reg ⟨b.toNat, h2⟩))).advance 4)
  | lt (a b : Byte) (h1 : a.toNat < 32) (h2 : b.toNat < 32) :
      Did s (.lt a b) ((s.setFlag (condLessThan (s.reg ⟨a.toNat, h1⟩) (s.reg ⟨b.toNat, h2⟩))).advance 4)
  | gte (a b : Byte) (h1 : a.toNat < 32) (h2 : b.toNat < 32) :
      Did s (.gte a b) ((s.setFlag (condGreaterOrEqual (s.reg ⟨a.toNat, h1⟩) (s.reg ⟨b.toNat, h2⟩))).advance 4)
  | lte (a b : Byte) (h1 : a.toNat < 32) (h2 : b.toNat < 32) :
      Did s (.lte a b) ((s.setFlag (condLessOrEqual (s.reg ⟨a.toNat, h1⟩) (s.reg ⟨b.toNat, h2⟩))).advance 4)

/-- The three-field shape: where `Did` lists what the body does, it lists what the instruction does. -/
theorem did_of_withReg3 {i : Instr} {s : State} {s1 s2 d : Byte} {body : Fin 32 → Fin 32 → Fin 32 → Result}
    (fields : i.regFields = [s1, s2, d])
    (hb : ∀ (h1 : s1.toNat < 32) (h2 : s2.toNat < 32) (h3 : d.toNat < 32),
      ∃ t, body ⟨s1.toNat, h1⟩ ⟨s2.toNat, h2⟩ ⟨d.toNat, h3⟩ = .next t ∧ Did s i t) :
    ∃ t, withReg3 s1 s2 d s body = .next t ∧ Did s i t := by
  rcases withReg3_cases s1 s2 d s body with ⟨h, e'⟩ | ⟨h1, h2, h3, e'⟩
  · exact ⟨_, e', .badRegister (by simpa [fields] using h)⟩
  · rw [e']; exact hb h1 h2 h3

theorem did_of_withReg2 {i : Instr} {s : State} {a b : Byte} {body : Fin 32 → Fin 32 → Result}
    (fields : i.regFields = [a, b])
    (hb : ∀ (h1 : a.toNat < 32) (h2 : b.toNat < 32), ∃ t, body ⟨a.toNat, h1⟩ ⟨b.toNat, h2⟩ = .next t ∧ Did s i t) :
    ∃ t, withReg2 a b s body = .next t ∧ Did s i t := by
  rcases withReg2_cases a b s body with ⟨h, e'⟩ | ⟨h1, h2, e'⟩
  · exact ⟨_, e', .badRegister (by simpa [fields] using h)⟩
  · rw [e']; exact hb h1 h2

theorem did_of_withReg {i : Instr} {s : State} {r : Byte} {body : Fin 32 → Result}
    (fields : i.regFields = [r])
    (hb : ∀ h : r.toNat < 32, ∃ t, body ⟨r.toNat, h⟩ = .next t ∧ Did s i t) :
    ∃ t, withReg r s body = .next t ∧ Did s i t := by
  rcases withReg_cases r s body with ⟨h, e'⟩ | ⟨h, e'⟩
  · exact ⟨_, e', .badRegister (by simpa [fields] using h)⟩
  · rw [e']; exact hb h

/-- Every instruction answers a next state, and the one that `Did` lists. -/
theorem exec_answers (i : Instr) (s : State) : ∃ t, exec i s = .next t ∧ Did s i t := by
  cases i with
  | hlt => exact ⟨_, rfl, .hlt⟩
  | invalid op => exact ⟨_, rfl, .invalid op⟩
  | load r imm =>
    simp only [exec, execLoad]
    exact did_of_withReg rfl fun h => ⟨_, rfl, .load r imm h⟩
  | add s1 s2 d =>
    simp only [exec, execAdd, arithmetic]
    exact did_of_withReg3 rfl fun h1 h2 h3 => ⟨_, rfl, .add s1 s2 d h1 h2 h3⟩
  | sub s1 s2 d =>
    simp only [exec, execSub, arithmetic]
    exact did_of_withReg3 rfl fun h1 h2 h3 => ⟨_, rfl, .sub s1 s2 d h1 h2 h3⟩
  | mul s1 s2 d =>
    simp only [exec, execMul, arithmetic]
    exact did_of_withReg3 rfl fun h1 h2 h3 => ⟨_, rfl, .mul s1 s2 d h1 h2 h3⟩
  | div s1 s2 d =>
    simp only [exec, execDiv]
    refine did_of_withReg3 rfl fun h1 h2 h3 => ?_
    by_cases hz : asS32 (s.reg ⟨s2.toNat, h2⟩) = 0
    · exact ⟨_, if_pos hz, .divByZero s1 s2 d h1 h2 h3 hz⟩
    · exact ⟨_, if_neg hz, .div s1 s2 d h1 h2 h3 hz⟩
  | jmp r =>
    simp only [exec, execJmp]
    exact did_of_withReg rfl fun h => ⟨_, rfl, .jmp r h⟩
  | jmpf r =>
    simp only [exec, execJmpf]
    refine did_of_withReg rfl fun h => ?_
    by_cases hl : s.program.length.val < asU32 s.pc + asU32 (s.reg ⟨r.toNat, h⟩)
    · exact ⟨_, if_pos hl, .jmpfOut r h hl⟩
    · exact ⟨_, if_neg hl, .jmpf r h (Nat.not_lt.mp hl)⟩
  | jmpb r =>
    simp only [exec, execJmpb]
    refine did_of_withReg rfl fun h => ?_
    by_cases hl : asU32 s.pc < asU32 (s.reg ⟨r.toNat, h⟩)
    · exact ⟨_, if_pos hl, .jmpbOut r h hl⟩
    · exact ⟨_, if_neg hl, .jmpb r h (Nat.not_lt.mp hl)⟩
  | jeq r =>
    simp only [exec, execJeq]
    refine did_of_withReg rfl fun h => ?_
    cases hf : s.flag with
    | true => exact ⟨_, by simp, .jeqTaken r h hf⟩
    | false => exact ⟨_, by simp, .jeqNot r h hf⟩
  | eq a b =>
    simp only [exec, execEq, comparison]
    exact did_of_withReg2 rfl fun h1 h2 => ⟨_, rfl, .eq a b h1 h2⟩
  | neq a b =>
    simp only [exec, execNeq, comparison]
    exact did_of_withReg2 rfl fun h1 h2 => ⟨_, rfl, .neq a b h1 h2⟩
  | gt a b =>
    simp only [exec, execGt, comparison]
    exact did_of_withReg2 rfl fun h1 h2 => ⟨_, rfl, .gt a b h1 h2⟩
  | lt a b =>
    simp only [exec, execLt, comparison]
    exact did_of_withReg2 rfl fun h1 h2 => ⟨_, rfl, .lt a b h1 h2⟩
  | gte a b =>
    simp only [exec, execGte, comparison]
    exact did_of_withReg2 rfl fun h1 h2 => ⟨_, rfl, .gte a b h1 h2⟩
  | lte a b =>
    simp only [exec, execLte, comparison]
    exact did_of_withReg2 rfl fun h1 h2 => ⟨_, rfl, .lte a b h1 h2⟩

/-- The inversion lemma of `exec`. -/
theorem exec_did {i : Instr} {s t : State} (h : exec i s = .next t) : Did s i t := by
  obtain ⟨u, hu, hd⟩ := exec_answers i s
  obtain rfl : u = t := Host.Outcome.next.inj (hu.symm.trans h)
  exact hd

end Sys2Proof.Machine
end

