-- ==== Sys2Proof/Laws/Memory.lean ====
section
/-! SUPPORT. The program memory: what reads give, that every memory operation keeps the canonical form, and that a byte
put at an address is read there and changes no other address. -/

namespace Sys2Proof.Machine

theorem Memory.read?_of_lt (m : Memory) {a : Nat} (h : a < m.length.val) : m.read? a = some (cellAt m.cells a) := by
  simp [Memory.read?, h]

theorem Memory.read?_eq_none_iff (m : Memory) (a : Nat) : m.read? a = none ↔ m.length.val ≤ a := by
  simp [Memory.read?]

theorem Memory.read?_isSome_iff (m : Memory) (a : Nat) : (m.read? a).isSome = true ↔ a < m.length.val := by
  simp only [Memory.read?]; split <;> simp [*]

theorem Memory.lt_of_read?_eq_some (m : Memory) {a : Nat} {b : Byte} (h : m.read? a = some b) : a < m.length.val := by
  rw [← m.read?_isSome_iff a, h]; rfl

/-- Bytes that all exist are read whole. -/
theorem Memory.readBytes_length (m : Memory) (n a : Nat) (h : a + n ≤ m.length.val) :
    (m.readBytes a n).length = n := by
  induction n generalizing a with
  | zero => rfl
  | succ n ih =>
    simp [Memory.readBytes, m.read?_of_lt (a := a) (by omega), ih (a + 1) (by omega)]

/-! ### The canonical form -/

theorem canonicalFrom_bound_mono {b b' : Nat} (h : b ≤ b') (l : List Host.Cell) (lo : Nat)
    (hl : canonicalFrom b lo l = true) : canonicalFrom b' lo l = true := by
  induction l generalizing lo with
  | nil => rfl
  | cons c rest ih =>
    simp only [canonicalFrom, Bool.and_eq_true, decide_eq_true_eq] at hl ⊢
    exact ⟨⟨⟨hl.1.1.1, by omega⟩, hl.1.2⟩, ih _ hl.2⟩

theorem canonicalFrom_low_mono {b lo lo' : Nat} (h : lo' ≤ lo) (l : List Host.Cell)
    (hl : canonicalFrom b lo l = true) : canonicalFrom b lo' l = true := by
  cases l with
  | nil => rfl
  | cons c rest =>
    simp only [canonicalFrom, Bool.and_eq_true, decide_eq_true_eq] at hl ⊢
    exact ⟨⟨⟨by omega, hl.1.1.2⟩, hl.1.2⟩, hl.2⟩

/-- A canonical list holds nothing below its first possible address. -/
theorem cellAt_below {b lo : Nat} (l : List Host.Cell) (hl : canonicalFrom b lo l = true) (a : Nat) (h : a < lo) :
    cellAt l a = unlistedByte := by
  induction l generalizing lo with
  | nil => rfl
  | cons c rest ih =>
    simp only [canonicalFrom, Bool.and_eq_true, decide_eq_true_eq] at hl
    have hne : c.1 ≠ a := by have := hl.1.1.1; omega
    simp only [cellAt, if_neg hne]
    exact ih hl.2 (by have := hl.1.1.1; omega)

theorem setCell_canonical (bound a : Nat) (b : Byte) (ha : a < bound) (l : List Host.Cell) (lo : Nat) (hlo : lo ≤ a)
    (hl : canonicalFrom bound lo l = true) : canonicalFrom bound lo (setCell a b l) = true := by
  induction l generalizing lo with
  | nil => by_cases hb : b = unlistedByte <;> simp [setCell, canonicalFrom, hb, ha, hlo]
  | cons c rest ih =>
    obtain ⟨k, v⟩ := c
    simp only [canonicalFrom, Bool.and_eq_true, decide_eq_true_eq] at hl
    obtain ⟨⟨⟨h1, h2⟩, h3⟩, h4⟩ := hl
    simp only [setCell]
    by_cases hk : k < a
    · simp only [if_pos hk, canonicalFrom, Bool.and_eq_true, decide_eq_true_eq]
      exact ⟨⟨⟨h1, h2⟩, h3⟩, ih (k + 1) (by omega) h4⟩
    · simp only [if_neg hk]
      have others : canonicalFrom bound (a + 1) (if k = a then rest else (k, v) :: rest) = true := by
        by_cases he : k = a
        · simp only [if_pos he]; rw [← he]; exact h4
        · simp only [if_neg he, canonicalFrom, Bool.and_eq_true, decide_eq_true_eq]
          exact ⟨⟨⟨by omega, h2⟩, h3⟩, h4⟩
      by_cases hb : b = unlistedByte
      · simp only [if_pos hb]
        exact canonicalFrom_low_mono (by omega) _ others
      · simp only [if_neg hb, canonicalFrom, Bool.and_eq_true, decide_eq_true_eq]
        exact ⟨⟨⟨hlo, ha⟩, hb⟩, others⟩

theorem cellAt_setCell_same {bound lo : Nat} (a : Nat) (b : Byte) (l : List Host.Cell)
    (hl : canonicalFrom bound lo l = true) : cellAt (setCell a b l) a = b := by
  induction l generalizing lo with
  | nil => by_cases hb : b = unlistedByte <;> simp [setCell, cellAt, hb]
  | cons c rest ih =>
    obtain ⟨k, v⟩ := c
    simp only [canonicalFrom, Bool.and_eq_true, decide_eq_true_eq] at hl
    simp only [setCell]
    by_cases hk : k < a
    · have hne : k ≠ a := by omega
      simp only [if_pos hk, cellAt, if_neg hne]
      exact ih hl.2
    · simp only [if_neg hk]
      by_cases hb : b = unlistedByte
      · subst hb
        by_cases he : k = a
        · simpa [he] using cellAt_below rest hl.2 a (by omega)
        · simp only [if_pos, if_neg he, cellAt]
          exact cellAt_below rest hl.2 a (by omega)
      · simp [hb, cellAt]

theorem cellAt_setCell_other (a x : Nat) (b : Byte) (h : x ≠ a) (l : List Host.Cell) :
    cellAt (setCell a b l) x = cellAt l x := by
  have hax : a ≠ x := fun e => h e.symm
  induction l with
  | nil => by_cases hb : b = unlistedByte <;> simp [setCell, cellAt, hb, hax]
  | cons c rest ih =>
    obtain ⟨k, v⟩ := c
    simp only [setCell]
    by_cases hk : k < a
    · simp only [if_pos hk, cellAt, ih]
    · simp only [if_neg hk]
      by_cases hb : b = unlistedByte <;> by_cases he : k = a <;> simp [hb, he, cellAt, hax]

theorem cellsOf_canonical (bytes : List Byte) (a : Nat) :
    canonicalFrom (a + bytes.length) a (cellsOf a bytes) = true := by
  induction bytes generalizing a with
  | nil => rfl
  | cons b rest ih =>
    have h := ih (a + 1)
    rw [show a + 1 + rest.length = a + (b :: rest).length by simp; omega] at h
    simp only [cellsOf]
    by_cases hb : b = unlistedByte
    · simp only [if_pos hb]; exact canonicalFrom_low_mono (by omega) _ h
    · simpa [hb, canonicalFrom] using h

theorem cellAt_cellsOf (bytes : List Byte) (a k : Nat) (h : k < bytes.length) :
    cellAt (cellsOf a bytes) (a + k) = bytes[k] := by
  induction bytes generalizing a k with
  | nil => simp at h
  | cons b rest ih =>
    cases k with
    | zero =>
      simp only [cellsOf, Nat.add_zero, List.getElem_cons_zero]
      by_cases hb : b = unlistedByte
      · simp only [hb]
        exact cellAt_below _ (cellsOf_canonical rest (a + 1)) a (by omega)
      · simp [hb, cellAt]
    | succ k =>
      have hk := ih (a + 1) k (by simpa using h)
      rw [show a + 1 + k = a + (k + 1) by omega] at hk
      simp only [cellsOf, List.getElem_cons_succ]
      by_cases hb : b = unlistedByte
      · simpa [hb] using hk
      · have hne : a ≠ a + (k + 1) := by omega
        simpa [hb, cellAt, hne] using hk

/-! ### The memory operations keep the canonical form -/

theorem Memory.wf_empty : Memory.empty.wf = true := rfl

theorem Memory.wf_ofBytes (bytes : List Byte) (fits : bytes.length < 2 ^ 32) : (Memory.ofBytes bytes fits).wf = true := by
  simpa [Memory.wf, Memory.ofBytes] using cellsOf_canonical bytes 0

theorem Memory.wf_patchByte (a : Nat) (b : Byte) (m : Memory) (h : m.wf = true) : (m.patchByte a b).wf = true := by
  simp only [Memory.patchByte]
  split
  · exact setCell_canonical _ a b (by simp) _ 0 (by omega) (canonicalFrom_bound_mono (by simp) _ _ h)
  · exact h

theorem Memory.wf_patch (bytes : List Byte) (a : Nat) (m : Memory) (h : m.wf = true) :
    (Memory.patch a bytes m).wf = true := by
  induction bytes generalizing a m with
  | nil => exact h
  | cons b rest ih => exact ih (a + 1) _ (m.wf_patchByte a b h)

/-! ### What reads give after an operation -/

/-- The installed program reads back byte for byte, and holds nothing past its end (R26, R33). -/
theorem Memory.read?_ofBytes (bytes : List Byte) (fits : bytes.length < 2 ^ 32) (a : Nat) :
    (Memory.ofBytes bytes fits).read? a = bytes[a]? := by
  by_cases h : a < bytes.length
  · have hc := cellAt_cellsOf bytes 0 a h
    simp only [Nat.zero_add] at hc
    simp [Memory.read?, Memory.ofBytes, h, hc]
  · simp [Memory.read?, Memory.ofBytes, h]

theorem Memory.read?_patchByte_same (a : Nat) (b : Byte) (m : Memory) (h : m.wf = true) (ha : a + 1 < 2 ^ 32) :
    (m.patchByte a b).read? a = some b := by
  have := cellAt_setCell_same a b m.cells h
  simp only [Memory.patchByte, dif_pos ha, Memory.read?, this]
  simp

theorem Memory.read?_patchByte_other (a x : Nat) (b : Byte) (m : Memory) (hx : x ≠ a) (hl : x < m.length.val) :
    (m.patchByte a b).read? x = m.read? x := by
  simp only [Memory.patchByte]
  split
  · simp [Memory.read?, cellAt_setCell_other a x b hx, hl]
  · rfl

end Sys2Proof.Machine
end

