-- ==== Sys2Proof/Laws/Cycle.lean ====
section
/-! SUPPORT. What fetching can answer, and the ways a step can go (R56): one inversion lemma for each. -/

namespace Sys2Proof.Machine

theorem Tag.width_eq_one_or_four (tag : Tag) : tag.width = 1 ∨ tag.width = 4 := by
  cases tag <;> simp [Tag.width]

/-- An instruction of width 1 decodes from its opcode byte alone. -/
theorem decode_narrow (cfg : Config) (op : Byte) (rest : List Byte) (h : (tagOf cfg op).width = 1) :
    decode cfg (op :: rest) = .ok (assemble (tagOf cfg op) op 0 0 0, rest) := by
  simp [decode, h]

/-- An instruction of width 4 decodes from four bytes. -/
theorem decode_wide (cfg : Config) (op b1 b2 b3 : Byte) (rest : List Byte) (h : (tagOf cfg op).width = 4) :
    decode cfg (op :: b1 :: b2 :: b3 :: rest) = .ok (assemble (tagOf cfg op) op b1 b2 b3, rest) := by
  simp [decode, h]

/-- Every answer of `fetch` (R50 to R53): no opcode byte, a truncated instruction, one of width 1, or one of width 4. -/
theorem fetch_cases (cfg : Config) (m : Memory) (start : Nat) :
    (m.length.val ≤ start ∧ fetch cfg m start = .error .noOpcode) ∨
    (∃ op, m.read? start = some op ∧ (tagOf cfg op).width = 4 ∧ m.length.val < start + 4 ∧
      fetch cfg m start = .error .truncated) ∨
    (∃ op, m.read? start = some op ∧ (tagOf cfg op).width = 1 ∧
      fetch cfg m start = .ok (assemble (tagOf cfg op) op 0 0 0)) ∨
    (∃ op b1 b2 b3, m.read? start = some op ∧ (tagOf cfg op).width = 4 ∧ start + 4 ≤ m.length.val ∧
      m.read? (start + 1) = some b1 ∧ m.read? (start + 2) = some b2 ∧ m.read? (start + 3) = some b3 ∧
      fetch cfg m start = .ok (assemble (tagOf cfg op) op b1 b2 b3)) := by
  by_cases hs : start < m.length.val
  · right
    have h0 := m.read?_of_lt hs
    rcases Tag.width_eq_one_or_four (tagOf cfg (cellAt m.cells start)) with w | w
    · right; left
      refine ⟨_, h0, w, ?_⟩
      simp [fetch, h0, w, show ¬ m.length.val < start + 1 by omega, Memory.readBytes, decode]
    · by_cases ht : m.length.val < start + 4
      · left
        exact ⟨_, h0, w, ht, by simp [fetch, h0, w, ht]⟩
      · right; right
        have h1 := m.read?_of_lt (a := start + 1) (by omega)
        have h2 := m.read?_of_lt (a := start + 2) (by omega)
        have h3 := m.read?_of_lt (a := start + 3) (by omega)
        refine ⟨_, _, _, _, h0, w, by omega, h1, h2, h3, ?_⟩
        simp [fetch, h0, w, ht, Memory.readBytes, h1, h2, h3, decode]
  · left
    have h0 := (m.read?_eq_none_iff start).mpr (by omega)
    exact ⟨by omega, by simp [fetch, h0]⟩

/-- A step in a terminal status changes nothing (R49): the shape of `cycle`, for use in proofs. -/
theorem cycle_of_not_running (cfg : Config) (s : State) (h : s.status ≠ .running) : cycle cfg s = .next s := by
  cases hs : s.status <;> simp_all [cycle]

/-- A running step: halted at the end, truncated, or the body of the fetched instruction (R56). -/
theorem cycle_of_running (cfg : Config) (s : State) (h : s.status = .running) :
    (fetch cfg s.program s.pc.toNat = .error .noOpcode ∧ cycle cfg s = .next (s.halt .endOfProgram)) ∨
    (fetch cfg s.program s.pc.toNat = .error .truncated ∧
      cycle cfg s = .next (s.raise .truncatedInstruction s.pc)) ∨
    (∃ i, fetch cfg s.program s.pc.toNat = .ok i ∧ cycle cfg s = exec i s) := by
  cases hf : fetch cfg s.program s.pc.toNat with
  | ok i => exact .inr (.inr ⟨i, rfl, by simp [cycle, h, hf]⟩)
  | error e =>
    cases e with
    | noOpcode => exact .inl ⟨rfl, by simp [cycle, h, hf]⟩
    | truncated => exact .inr (.inl ⟨rfl, by simp [cycle, h, hf]⟩)

end Sys2Proof.Machine
end

