-- ==== Sys2Proof/Laws/PerInstr.lean ====
section
/-! SUPPORT. Facts stated per instruction. EncodedWidth: the encoder writes exactly `width(tag)` bytes (R39, R41).
OperandsInEncoding: every register-index field stands in the encoding, at its place after the opcode byte (R40, R42). -/

namespace Sys2Proof.Laws.EncodedWidth

def Statement (i : Instr) : Prop := ∀ cfg, (encode cfg i).length = i.tag.width

theorem hlt : Statement .hlt := fun _ => rfl
theorem load (r : Byte) (imm : Imm16) : Statement (.load r imm) := fun _ => rfl
theorem add (s1 s2 d : Byte) : Statement (.add s1 s2 d) := fun _ => rfl
theorem sub (s1 s2 d : Byte) : Statement (.sub s1 s2 d) := fun _ => rfl
theorem mul (s1 s2 d : Byte) : Statement (.mul s1 s2 d) := fun _ => rfl
theorem div (s1 s2 d : Byte) : Statement (.div s1 s2 d) := fun _ => rfl
theorem jmp (r : Byte) : Statement (.jmp r) := fun _ => rfl
theorem jmpf (r : Byte) : Statement (.jmpf r) := fun _ => rfl
theorem jmpb (r : Byte) : Statement (.jmpb r) := fun _ => rfl
theorem eq (a b : Byte) : Statement (.eq a b) := fun _ => rfl
theorem neq (a b : Byte) : Statement (.neq a b) := fun _ => rfl
theorem gt (a b : Byte) : Statement (.gt a b) := fun _ => rfl
theorem lt (a b : Byte) : Statement (.lt a b) := fun _ => rfl
theorem gte (a b : Byte) : Statement (.gte a b) := fun _ => rfl
theorem lte (a b : Byte) : Statement (.lte a b) := fun _ => rfl
theorem jeq (r : Byte) : Statement (.jeq r) := fun _ => rfl
theorem invalid (op : Byte) : Statement (.invalid op) := fun _ => rfl

end Sys2Proof.Laws.EncodedWidth

namespace Sys2Proof.Laws.OperandsInEncoding

def Statement (i : Instr) : Prop :=
  ∀ cfg, ((encode cfg i).drop 1).take i.regFields.length = i.regFields

theorem hlt : Statement .hlt := fun _ => rfl
theorem load (r : Byte) (imm : Imm16) : Statement (.load r imm) := fun _ => rfl
theorem add (s1 s2 d : Byte) : Statement (.add s1 s2 d) := fun _ => rfl
theorem sub (s1 s2 d : Byte) : Statement (.sub s1 s2 d) := fun _ => rfl
theorem mul (s1 s2 d : Byte) : Statement (.mul s1 s2 d) := fun _ => rfl
theorem div (s1 s2 d : Byte) : Statement (.div s1 s2 d) := fun _ => rfl
theorem jmp (r : Byte) : Statement (.jmp r) := fun _ => rfl
theorem jmpf (r : Byte) : Statement (.jmpf r) := fun _ => rfl
theorem jmpb (r : Byte) : Statement (.jmpb r) := fun _ => rfl
theorem eq (a b : Byte) : Statement (.eq a b) := fun _ => rfl
theorem neq (a b : Byte) : Statement (.neq a b) := fun _ => rfl
theorem gt (a b : Byte) : Statement (.gt a b) := fun _ => rfl
theorem lt (a b : Byte) : Statement (.lt a b) := fun _ => rfl
theorem gte (a b : Byte) : Statement (.gte a b) := fun _ => rfl
theorem lte (a b : Byte) : Statement (.lte a b) := fun _ => rfl
theorem jeq (r : Byte) : Statement (.jeq r) := fun _ => rfl
theorem invalid (op : Byte) : Statement (.invalid op) := fun _ => rfl

end Sys2Proof.Laws.OperandsInEncoding
end

