-- ==== Sys2Proof/Tests/Slice0.lean ====
section
/-! SUPPORT. Our own checks. The words are written out from the encodings of 30_encoding.md R40 and R58, the expected
results are those of 95_test_vectors.md (named by their ids) or hand calculation from the rules. The witnesses show,
for each statement with hypotheses, concrete states and operands that meet all of them. -/

namespace Sys2Proof.Tests

open Sys2Proof.Machine

/-- A small state: some registers, the counter, the flag and the program given, the rest as at reset. -/
def small (regs : List (Nat × Int)) (pc : Nat) (flag : Bool) (bytes : List Byte) : State :=
  { State.reset with
    regs := regs.foldl (fun v p => v.setIfInBounds p.1 (BitVec.ofInt 32 p.2)) State.reset.regs
    pc := BitVec.ofNat 32 pc
    flag := flag
    program := if fits : bytes.length < 2 ^ 32 then Memory.ofBytes bytes fits else Memory.empty }

/-- One step of this hardware, and a check of its result. -/
def after (s : State) (ok : State → Bool) : Bool :=
  match step s with
  | .next t => ok t
  | .fault _ => false
  | .refused _ => false

/-- A check of one register, of the counter and of the status being Running. -/
def given (r : Fin 32) (v : Int) (pc : Nat) (t : State) : Bool :=
  decide ((t.reg r).toInt = v) && decide (t.pc.toNat = pc) && decide (t.status = .running)

/-- A check of the status and of the counter. -/
def ended (st : RunStatus) (pc : Nat) (t : State) : Bool := decide (t.status = st) && decide (t.pc.toNat = pc)

/-- A check of the flag and of the counter. -/
def flagged (f : Bool) (pc : Nat) (t : State) : Bool :=
  decide (t.flag = f) && decide (t.pc.toNat = pc) && decide (t.status = .running)

/-- The parameters of this hardware without the extension (R6). -/
def noExtension : Config := { hardwareConfig with extCmp := false }

/-- The other numbering that item I15 of 93_implementation_defined.md recalls, as another `OPCODE_MAP`. -/
def otherMap : Config where
  opcodeMap := #v[.load, .add, .sub, .mul, .div, .halt, .jumpAbsolute, .jumpForward, .jumpBackward]
  extCmp := true
  bijective := by decide

/-! ### Decoding: every constructor, from its word written out -/

theorem test_decode_hlt : decode hardwareConfig [0x00] = .ok (.hlt, []) := rfl
theorem test_decode_load : decode hardwareConfig [0x01, 0x1F, 0x12, 0x34] = .ok (.load 31 0x1234, []) := rfl
theorem test_decode_add : decode hardwareConfig [0x02, 0x00, 0x01, 0x02] = .ok (.add 0 1 2, []) := rfl
theorem test_decode_sub : decode hardwareConfig [0x03, 0x05, 0x04, 0x06] = .ok (.sub 5 4 6, []) := rfl
theorem test_decode_mul : decode hardwareConfig [0x04, 0x00, 0x01, 0x02] = .ok (.mul 0 1 2, []) := rfl
theorem test_decode_div : decode hardwareConfig [0x05, 0x02, 0x04, 0x05] = .ok (.div 2 4 5, []) := rfl
theorem test_decode_jmp : decode hardwareConfig [0x06, 0x03, 0x00, 0x00] = .ok (.jmp 3, []) := rfl
theorem test_decode_jmpf : decode hardwareConfig [0x07, 0x02, 0x00, 0x00] = .ok (.jmpf 2, []) := rfl
theorem test_decode_jmpb : decode hardwareConfig [0x08, 0x01, 0x00, 0x00] = .ok (.jmpb 1, []) := rfl
theorem test_decode_eq : decode hardwareConfig [0x09, 0x05, 0x06, 0xFF] = .ok (.eq 5 6, []) := rfl
theorem test_decode_neq : decode hardwareConfig [0x0A, 0x05, 0x06, 0x00] = .ok (.neq 5 6, []) := rfl
theorem test_decode_gt : decode hardwareConfig [0x0B, 0x05, 0x06, 0x00] = .ok (.gt 5 6, []) := rfl
theorem test_decode_lt : decode hardwareConfig [0x0C, 0x05, 0x06, 0x00] = .ok (.lt 5 6, []) := rfl
theorem test_decode_gte : decode hardwareConfig [0x0D, 0x05, 0x06, 0x00] = .ok (.gte 5 6, []) := rfl
theorem test_decode_lte : decode hardwareConfig [0x0E, 0x05, 0x06, 0x00] = .ok (.lte 5 6, []) := rfl
theorem test_decode_jeq : decode hardwareConfig [0x0F, 0x04, 0x00, 0x00] = .ok (.jeq 4, []) := rfl
theorem test_decode_invalid : decode hardwareConfig [0x10, 0x07] = .ok (.invalid 0x10, [0x07]) := rfl

/-- D-5, D-6: without the extension the codes 10 to 15 decode to Invalid. -/
theorem test_decode_without_extension :
    decode noExtension [0x0A, 0x00, 0x01, 0x00] = .ok (.invalid 0x0A, [0x00, 0x01, 0x00]) := rfl

/-- Another `OPCODE_MAP` permutes the codes 0 to 8 and nothing else (R46). -/
theorem test_decode_other_map : decode otherMap [0x05] = .ok (.hlt, []) ∧
    decode otherMap [0x09, 0x00, 0x01, 0x00] = .ok (.eq 0 1, []) := ⟨rfl, rfl⟩

theorem test_decode_missing_bytes : decode hardwareConfig [] = .error .noOpcode ∧
    decode hardwareConfig [0x02, 0x20] = .error .truncated := ⟨rfl, rfl⟩

theorem test_encode_load : encode hardwareConfig (.load 0 500) = [0x01, 0x00, 0x01, 0xF4] := by decide
theorem test_encode_jeq : encode hardwareConfig (.jeq 4) = [0x0F, 0x04, 0x00, 0x00] := by decide

/-- `LOAD r0, 500` as the opcode table numbers bits: the opcode byte is bits 7 to 0. -/
theorem test_table_word_load : decodeTableWord 32 0xF4010001 = some (.load 0 500) := by decide

/-- The table gives a row 8 bits: the operand bytes are then 0. -/
theorem test_table_word_short : decodeTableWord 8 0x09 = some (.eq 0 0) := by decide

/-! ### Well-formedness: an ill-formed term for each check -/

theorem test_ill_formed_register : (Instr.add 0 1 32).wellFormed hardwareConfig = false := by decide
theorem test_ill_formed_absent : (Instr.jeq 4).wellFormed noExtension = false := by decide
theorem test_ill_formed_opcode : (Instr.invalid 0x09).wellFormed noExtension = false := by decide
theorem test_ill_formed_opcode_extension : (Instr.invalid 0x0F).wellFormed hardwareConfig = false := by decide
theorem test_well_formed : (Instr.add 31 31 31).wellFormed hardwareConfig = true := by decide

/-! ### One step: the vectors of 95_test_vectors.md -/

theorem test_S2_load : after (small [] 0 false [0x01, 0x00, 0x01, 0xF4]) (given 0 500 4) = true := by decide
theorem test_LD3_load_negative : after (small [] 0 false [0x01, 0x05, 0x80, 0x00]) (given 5 (-32768) 4) = true := by decide
theorem test_A1_add_wraps :
    after (small [(0, 2147483647), (1, 1)] 0 false [0x02, 0x00, 0x01, 0x02]) (given 2 (-2147483648) 4) = true := by decide
theorem test_A14_add_aliased : after (small [(1, 21)] 0 false [0x02, 0x01, 0x01, 0x01]) (given 1 42 4) = true := by decide
theorem test_A7_sub_wraps :
    after (small [(1, -2147483648)] 0 false [0x03, 0x00, 0x01, 0x02]) (given 2 (-2147483648) 4) = true := by decide
theorem test_A8_sub_order : after (small [(0, 5), (1, -7)] 0 false [0x03, 0x00, 0x01, 0x02]) (given 2 12 4) = true := by decide
theorem test_A11_mul_wraps :
    after (small [(0, 46341), (1, 46341)] 0 false [0x04, 0x00, 0x01, 0x02]) (given 2 (-2147479015) 4) = true := by decide
theorem test_A16_mul_aliased :
    after (small [(0, 6), (1, 7)] 0 false [0x04, 0x00, 0x01, 0x00]) (given 0 42 4) = true := by decide
theorem test_V2_div_negative : after (small [(0, -7), (1, 2)] 0 false [0x05, 0x00, 0x01, 0x02])
    (fun t => given 2 (-3) 4 t && decide (t.rem = 0xFFFFFFFF)) = true := by decide
theorem test_V13_div_over_divisor : after (small [(0, 20), (1, 6)] 0 false [0x05, 0x00, 0x01, 0x01])
    (fun t => given 1 3 4 t && decide (t.rem = 2)) = true := by decide
theorem test_V11_div_by_zero : after (small [(0, 7)] 0 false [0x05, 0x00, 0x01, 0x02])
    (ended (.faulted .divisionByZero 0) 0) = true := by decide
theorem test_J3_jmp_unchecked : after (small [(0, -1)] 0 false [0x06, 0x00, 0x00, 0x00])
    (ended .running 4294967295) = true := by decide
theorem test_S5a_jmpf_base : after (small [(0, 5)] 2 false [0, 0, 0x07, 0, 0, 0, 0, 0]) (ended .running 7) = true := by decide
theorem test_J6_jmpf_out : after (small [(0, 5)] 0 false [0x07, 0x00, 0x00, 0x00])
    (ended (.faulted .jumpOutOfBounds 0) 0) = true := by decide
theorem test_S5b_jmpb_base : after (small [(0, 2)] 2 false [0, 0, 0x08, 0, 0, 0]) (ended .running 0) = true := by decide
theorem test_S5c_jmpb_out : after (small [(0, 3)] 2 false [0, 0, 0x08, 0, 0, 0])
    (ended (.faulted .jumpOutOfBounds 2) 2) = true := by decide
theorem test_J13_jeq_taken : after (small [(4, 36)] 0 true [0x0F, 0x04, 0x00, 0x00]) (flagged true 36) = true := by decide
theorem test_J14_jeq_not_taken : after (small [(4, 36)] 0 false [0x0F, 0x04, 0x00, 0x00]) (flagged false 4) = true := by decide
theorem test_S6c_eq_overwrites : after (small [(0, 10), (1, 11)] 0 true [0x09, 0x00, 0x01, 0x00]) (flagged false 4) = true := by decide
theorem test_T11_eq_padding : after (small [(0, 1), (1, 1)] 0 false [0x09, 0x00, 0x01, 0xFF]) (flagged true 4) = true := by decide
theorem test_K2_neq : after (small [(0, -4), (1, 3)] 0 false [0x0A, 0x00, 0x01, 0x00]) (flagged true 4) = true := by decide
theorem test_K4_gt_signed : after (small [(0, 0), (1, -1)] 0 false [0x0B, 0x00, 0x01, 0x00]) (flagged true 4) = true := by decide
theorem test_K3_gt_equal : after (small [(0, 7), (1, 7)] 0 true [0x0B, 0x00, 0x01, 0x00]) (flagged false 4) = true := by decide
theorem test_K5_lt_signed :
    after (small [(0, -2147483648), (1, 2147483647)] 0 false [0x0C, 0x00, 0x01, 0x00]) (flagged true 4) = true := by decide
theorem test_K6_gte_equal : after (small [(0, -1), (1, -1)] 0 false [0x0D, 0x00, 0x01, 0x00]) (flagged true 4) = true := by decide
theorem test_K1_lte : after (small [(0, 3), (1, -4)] 0 true [0x0E, 0x00, 0x01, 0x00]) (flagged false 4) = true := by decide
theorem test_S3_halt : after (small [] 0 false [0, 0, 0, 0]) (ended (.halted .explicitHalt) 1) = true := by decide
theorem test_T5_invalid : after (small [] 0 false [0xFF]) (ended (.halted .unknownOpcode) 1) = true := by decide
theorem test_T2_end_of_program : after (small [] 10 false [0, 0, 0, 0]) (ended (.halted .endOfProgram) 10) = true := by decide
theorem test_T7_truncated_first : after (small [] 0 false [0x02, 0x20])
    (ended (.faulted .truncatedInstruction 0) 0) = true := by decide
theorem test_T10_register_before_divisor : after (small [] 0 false [0x05, 0x00, 0x21, 0x01])
    (ended (.faulted .registerOutOfRange 0) 0) = true := by decide
theorem test_T15_no_alignment : after (small [] 1 false [0x01, 0x00, 0x00, 0x05, 0x00])
    (ended (.halted .explicitHalt) 2) = true := by decide
theorem test_T12_terminal : after { small [] 1 false [0, 1, 0, 0, 0x2A] with status := .halted .explicitHalt }
    (ended (.halted .explicitHalt) 1) = true := by decide
theorem test_placed_word_runs : after (State.reset.withFetchWord 32 0xF4010001) (given 0 500 4) = true := by decide

/-- O-2 of 95_test_vectors.md: the status is Running again, the counter is kept. -/
theorem test_O2_replace_program :
    (match replaceProgram [0, 0] { small [(0, 7)] 1 true [0] with rem := 3, status := .halted .explicitHalt } with
      | .next t => ended .running 1 t && decide (t.reg 0 = 7 ∧ t.flag = true ∧ t.rem = 3 ∧ t.program.length.val = 2)
      | .fault _ => false
      | .refused _ => false) = true := by decide

/-! ### Witnesses: the hypotheses of the statements can be met -/

/-- The tags of width 4. -/
def wideTags : List Tag :=
  [.load, .add, .sub, .mul, .div, .jumpAbsolute, .jumpForward, .jumpBackward, .equal, .notEqual, .greaterThan, .lessThan,
    .greaterOrEqual, .lessOrEqual, .jumpIfEqual]

/-- `HasForm`, first and second clause, for every tag of width 4: an opcode byte of the tag, and a running state whose
program ends one byte short. -/
theorem witness_HasForm_opcode_and_truncation : ∀ tag ∈ wideTags,
    tagOf hardwareConfig (opcodeOf hardwareConfig tag) = tag ∧
    (small [] 1 false [0, opcodeOf hardwareConfig tag, 0, 0]).status = .running ∧
    (small [] 1 false [0, opcodeOf hardwareConfig tag, 0, 0]).program.read? 1 = some (opcodeOf hardwareConfig tag) ∧
    (small [] 1 false [0, opcodeOf hardwareConfig tag, 0, 0]).program.length.val < 1 + 4 := by decide

/-- `HasForm`, third clause, and `RegisterOutOfRangeExactly`: an index of 32 in each register field. -/
theorem witness_register_out_of_range : ∀ i ∈ [Instr.load 32 0, .add 32 0 0, .sub 0 32 0, .mul 0 0 32, .div 0 0 32, .jmp 32,
    .jmpf 32, .jmpb 32, .eq 32 0, .neq 0 32, .gt 32 0, .lt 0 32, .gte 32 0, .lte 0 32, .jeq 32],
    ∃ f ∈ i.regFields, 31 < f.toNat := by decide

theorem witness_RegisterOutOfRangeExactly : State.reset.status = .running ∧
    ∃ t, exec (.jmp 32) State.reset = .next t ∧ t.status = .faulted .registerOutOfRange 0 := ⟨rfl, _, rfl, rfl⟩

/-- The largest legal index, for the clauses of the instruction statements that ask for legal indices. -/
theorem witness_legal_index : (31 : Byte).toNat < 32 := by decide

/-- `DivWritesQuotientAndRemainder`, `DivisionByZeroExactly`: a divisor other than 0, and a divisor of 0. -/
theorem witness_divisors : (small [(31, -1)] 0 false []).regs[(31 : Byte).toNat] ≠ 0 ∧
    State.reset.regs[(31 : Byte).toNat] = 0 := by decide

theorem witness_DivisionByZeroExactly : State.reset.status = .running ∧
    ∃ t, exec (.div 0 31 0) State.reset = .next t ∧ t.status = .faulted .divisionByZero 0 := ⟨rfl, _, rfl, rfl⟩

/-- `DivisionTableOfSigns`: a state for each row. -/
theorem witness_DivisionTableOfSigns : ∀ row ∈ ([(7, 2), (-7, 2), (7, -2), (-7, -2), (-2147483648, -1)] : List (Int × Int)),
    ((small [(0, row.1), (31, row.2)] 0 false []).regs[(0 : Byte).toNat]).toInt = row.1 ∧
    ((small [(0, row.1), (31, row.2)] 0 false []).regs[(31 : Byte).toNat]).toInt = row.2 := by decide

/-- `JumpForwardAddsToItsOwnOffset`, `JumpOutOfBoundsExactly`: a target of exactly `L`, and one past it. -/
theorem witness_jump_forward_bounds :
    (small [(0, 4)] 0 false [7, 0, 0, 0]).pc.toNat + ((small [(0, 4)] 0 false [7, 0, 0, 0]).regs[(0 : Byte).toNat]).toNat ≤
      (small [(0, 4)] 0 false [7, 0, 0, 0]).program.length.val ∧
    (small [(0, 5)] 0 false [7, 0, 0, 0]).program.length.val <
      (small [(0, 5)] 0 false [7, 0, 0, 0]).pc.toNat + ((small [(0, 5)] 0 false [7, 0, 0, 0]).regs[(0 : Byte).toNat]).toNat := by
  decide

/-- `JumpBackwardSubtractsFromItsOwnOffset`, `JumpOutOfBoundsExactly`: a distance of exactly the counter, and one more. -/
theorem witness_jump_backward_bounds :
    ((small [(0, 8)] 8 false []).regs[(0 : Byte).toNat]).toNat ≤ (small [(0, 8)] 8 false []).pc.toNat ∧
    (small [(0, 9)] 8 false []).pc.toNat < ((small [(0, 9)] 8 false []).regs[(0 : Byte).toNat]).toNat := by decide

theorem witness_JumpOutOfBoundsExactly : (small [(0, 1)] 0 false []).status = .running ∧
    (∃ t, exec (.jmpf 0) (small [(0, 1)] 0 false []) = .next t ∧ t.status = .faulted .jumpOutOfBounds 0) ∧
    ∃ t, exec (.jmpb 0) (small [(0, 1)] 0 false []) = .next t ∧ t.status = .faulted .jumpOutOfBounds 0 :=
  ⟨rfl, ⟨_, rfl, rfl⟩, _, rfl, rfl⟩

/-- `JumpIfEqualFollowsTheFlag`: both values of the flag. -/
theorem witness_flag_values : (small [] 0 true []).flag = true ∧ (small [] 0 false []).flag = false := ⟨rfl, rfl⟩

/-- `TruncatedInstructionExactly`, `FaultsArePrecise`, `OnlyComparisonsWriteTheFlag`, `OnlyDivWritesTheRemainder`: a
running step that faults. -/
theorem witness_faulting_steps : (small [] 0 true [2, 0, 1]).status = .running ∧
    (∃ t, cycle hardwareConfig (small [] 0 true [2, 0, 1]) = .next t ∧ t.status = .faulted .truncatedInstruction 0) ∧
    (∃ t, cycle hardwareConfig (small [] 0 true [5, 0, 1, 2]) = .next t ∧ t.status = .faulted .divisionByZero 0) :=
  ⟨rfl, ⟨_, rfl, rfl⟩, _, rfl, rfl⟩

theorem witness_TruncatedInstructionExactly : (small [] 0 true [2, 0, 1]).program.read? 0 = some 2 ∧
    (tagOf hardwareConfig 2).width = 4 ∧ (small [] 0 true [2, 0, 1]).program.length.val < 0 + 4 := by decide

/-- `HaltReasonsExactly`, `HaltInstructionEndsTheRun`, `UnknownOpcodeEndsTheRun`, `EndOfProgramHalts`: a running step
that ends in each halt, the first two on the last byte of the program. -/
theorem witness_halting_steps :
    (∃ t, cycle hardwareConfig (small [] 0 false [0]) = .next t ∧ t.status = .halted .explicitHalt) ∧
    (∃ t, cycle hardwareConfig (small [] 0 false [16]) = .next t ∧ t.status = .halted .unknownOpcode) ∧
    (∃ t, cycle hardwareConfig (small [] 1 false [0]) = .next t ∧ t.status = .halted .endOfProgram) :=
  ⟨⟨_, rfl, rfl⟩, ⟨_, rfl, rfl⟩, _, rfl, rfl⟩

theorem witness_halting_opcodes : tagOf hardwareConfig 0 = .halt ∧ tagOf hardwareConfig 16 = .invalid ∧
    (small [] 0 false [0]).program.read? 0 = some 0 ∧ (small [] 0 false [16]).program.read? 0 = some 16 ∧
    (small [] 1 false [0]).program.length.val ≤ (small [] 1 false [0]).pc.toNat ∧
    State.reset.program.length.val = 0 ∧ State.reset.status = .running := by decide

theorem witness_TerminalStatusIsFinal :
    { State.reset with status := .halted .explicitHalt }.status ≠ RunStatus.running ∧
    { State.reset with status := .faulted .divisionByZero 0 }.status ≠ RunStatus.running := by decide

theorem witness_StepRunsTheDecodedInstruction : (small [] 1 false [0, 1, 0, 1, 0xF4]).status = .running ∧
    (small [] 1 false [0, 1, 0, 1, 0xF4]).program.holds 1 [1, 0, 1, 0xF4] ∧
    decode hardwareConfig [1, 0, 1, 0xF4] = .ok (.load 0 500, []) := ⟨rfl, ⟨rfl, rfl, rfl, rfl, trivial⟩, rfl⟩

/-- An instruction that is no jump, and a JEQ that is not taken and ends where the program ends. -/
theorem witness_SequentialAdvanceNeverWraps :
    fetch hardwareConfig (small [] 0 false [1, 0, 1, 0xF4]).program 0 = .ok (.load 0 500) ∧
    (∃ t, cycle hardwareConfig (small [] 0 false [1, 0, 1, 0xF4]) = .next t ∧ t.status = .running) ∧
    (Instr.load 0 500).tag ∉ [Tag.jumpAbsolute, Tag.jumpForward, Tag.jumpBackward] ∧
    (Instr.load 0 500).tag ≠ .jumpIfEqual ∧
    fetch hardwareConfig (small [] 0 false [15, 4, 0, 0]).program 0 = .ok (.jeq 4) ∧
    (∃ t, cycle hardwareConfig (small [] 0 false [15, 4, 0, 0]) = .next t ∧ t.status = .running) ∧
    (Instr.jeq 4).tag ∉ [Tag.jumpAbsolute, Tag.jumpForward, Tag.jumpBackward] ∧ (small [] 0 false [15, 4, 0, 0]).flag = false :=
  ⟨rfl, ⟨_, rfl, rfl⟩, by decide, by decide, rfl, ⟨_, rfl, rfl⟩, by decide, rfl⟩

/-- Both clauses: the empty program, and for every length a byte sequence of that length, 2^32 among them. -/
theorem witness_ReplaceProgramInstallsTheBytes :
    ([] : List Byte).length < 2 ^ 32 ∧ ∀ n, ∃ bytes : List Byte, bytes.length = n :=
  ⟨by decide, fun n => ⟨List.replicate n 0, List.length_replicate⟩⟩

theorem witness_NextStepRunsTheReplacedProgram :
    (∃ t, replaceProgram [0, 1, 0, 0, 0x2A] (small [] 1 false []) = .next t) ∧
    decode hardwareConfig (List.drop (small [] 1 false []).pc.toNat [0, 1, 0, 0, 0x2A]) = .ok (.load 0 42, []) :=
  ⟨⟨_, rfl⟩, rfl⟩

theorem witness_RunReturns : RunReturns hardwareConfig (small [] 0 false [0])
    { small [] 0 false [0] with pc := 1, status := .halted .explicitHalt } := ⟨1, rfl, rfl, by decide⟩

theorem witness_ExhaustedBudgetIsThatManySteps : ∃ t,
    runBounded hardwareConfig (fun _ => false) 2 (small [] 0 false [7, 0, 0, 0]) = .next t ∧ t.status = .running :=
  ⟨_, rfl, rfl⟩

theorem witness_ZeroDistanceJumpLoopsForever : (small [] 0 false [7, 31, 0, 0]).status = .running ∧
    (small [] 0 false [7, 31, 0, 0]).regs[(31 : Byte).toNat] = 0 ∧
    fetch hardwareConfig (small [] 0 false [7, 31, 0, 0]).program 0 = .ok (.jmpf 31) ∧
    fetch hardwareConfig (small [] 0 false [8, 31, 0, 0]).program 0 = .ok (.jmpb 31) := ⟨rfl, rfl, rfl, rfl⟩

theorem witness_SignednessDoesNotChangeAddSubMul : (∃ t, exec (.add 0 1 2) State.reset = .next t) ∧
    (∃ t, exec (.sub 0 1 2) State.reset = .next t) ∧ ∃ t, exec (.mul 0 1 2) State.reset = .next t :=
  ⟨⟨_, rfl⟩, ⟨_, rfl⟩, _, rfl⟩

/-- `OnlyTheDestinationRegisterIsWritten`, `NoStepWritesTheProgram`, `StatusWrittenOnlyByHaltsAndFaults`: an instruction
with a destination, and a register that is another. -/
theorem witness_OnlyTheDestinationRegisterIsWritten : (∃ t, exec (.div 0 1 31) (small [(1, 1)] 0 false []) = .next t) ∧
    ∀ d, (Instr.div 0 1 31).destination = some d → d.toNat ≠ (30 : Fin 32).val :=
  ⟨⟨_, rfl⟩, fun d h => by cases h; decide⟩

/-- `OnlyComparisonsWriteTheFlag`, `OnlyJumpIfEqualReadsTheFlag`, `OnlyDivWritesTheRemainder`: a step on an instruction
that is no comparison, no JEQ and no DIV. -/
theorem witness_flag_and_remainder_frames :
    fetch hardwareConfig (small [] 0 true [2, 0, 1, 2]).program 0 = .ok (.add 0 1 2) ∧
    (∃ t, cycle hardwareConfig (small [] 0 true [2, 0, 1, 2]) = .next t) ∧
    (Instr.add 0 1 2).tag ∉ comparisonTags ∧ (Instr.add 0 1 2).tag ≠ .div :=
  ⟨rfl, ⟨_, rfl⟩, by decide, by decide⟩

theorem witness_OnlyJumpIfEqualReadsTheFlag_without_extension : noExtension.extCmp = false := rfl

theorem witness_DecodeOfEncodeIsTheInstruction : ∀ i ∈ [Instr.hlt, .load 31 0xFFFF, .add 31 0 31, .sub 0 31 0, .mul 31 31 31,
    .div 0 1 31, .jmp 31, .jmpf 31, .jmpb 31, .eq 31 0, .neq 0 31, .gt 31 0, .lt 0 31, .gte 31 0, .lte 0 31, .jeq 31,
    .invalid 16], i.wellFormed hardwareConfig = true := by decide

theorem witness_DecodedBytesAreTheEncodingButForPadding :
    decode hardwareConfig [0x09, 0x20, 0x01, 0xFF, 0x00] = .ok (.eq 32 1, [0x00]) := rfl

theorem witness_CodesFromNineOnAreFixed : 9 ≤ (9 : Byte).toNat ∧ 9 ≤ (255 : Byte).toNat := by decide

theorem witness_EachMappedTagHasOneCode : Tag.halt ∈ mappedTags ∧ Tag.jumpBackward ∈ mappedTags := by decide

theorem witness_PaddingBytesHaveNoEffect : tagOf hardwareConfig 9 ∈ comparisonTags ∧
    tagOf hardwareConfig 6 ∈ [Tag.jumpAbsolute, Tag.jumpForward, Tag.jumpBackward, Tag.jumpIfEqual] := by decide

/-- `EveryStepKeepsTheInvariant`, `ReachableStatesMeetTheInvariant`: a state with a program that meets the invariant,
that the host reaches, and that a step leaves. -/
theorem witness_invariant : ∃ s t, replaceProgram [5, 0, 1, 2] State.reset = .next s ∧ Reachable hardwareConfig s ∧
    Inv hardwareConfig s ∧ cycle hardwareConfig s = .next t ∧ step s = .next t ∧
    t.status = .faulted .divisionByZero 0 :=
  ⟨_, _, rfl, .replaced [5, 0, 1, 2] .fresh rfl, ⟨rfl, trivial⟩, rfl, rfl, rfl⟩

theorem witness_CanonicalMemoriesAreEqualData : (Memory.ofBytes [0, 5] (by decide)).wf = true ∧
    { length := 2, cells := [(1, 5)] : Memory }.wf = true ∧
    (Memory.ofBytes [0, 5] (by decide)).length = { length := 2, cells := [(1, 5)] : Memory }.length := by decide

/-- A memory that is not in canonical form: a cell that holds what an unlisted address reads as. -/
theorem test_not_canonical : { length := 2, cells := [(1, 0)] : Memory }.wf = false := by decide

theorem witness_PlacedWordIsRunNext : State.reset.program.wf = true ∧ State.reset.pc.toNat + 4 < 2 ^ 32 ∧
    decodeTableWord 32 0x02010002 = some (.add 0 1 2) := by decide

end Sys2Proof.Tests
end

section
/-! PROOFS. The sequential advance (10_state.md R18, R19): a fetched instruction lies within the program, so the counter
past its bytes is at most `L`, and `L` is below 2^32. -/

namespace Sys2Proof.Machine

@[simp] theorem assemble_tag (tag : Tag) (op b1 b2 b3 : Byte) : (assemble tag op b1 b2 b3).tag = tag := by
  cases tag <;> rfl

/-- The length check of R52: every byte of a fetched instruction is below `L`. -/
theorem fetch_ok_width_le {cfg : Config} {m : Memory} {start : Nat} {i : Instr} (h : fetch cfg m start = .ok i) :
    start + i.tag.width ≤ m.length.val := by
  rcases fetch_cases cfg m start with
    ⟨-, e⟩ | ⟨op, -, -, -, e⟩ | ⟨op, hop, w, e⟩ | ⟨op, b1, b2, b3, -, w, hle, -, -, -, e⟩
  · simp [e] at h
  · simp [e] at h
  · obtain rfl := Except.ok.inj (e.symm.trans h)
    rw [assemble_tag, w]
    exact m.lt_of_read?_eq_some hop
  · obtain rfl := Except.ok.inj (e.symm.trans h)
    rwa [assemble_tag, w]

/-- A running step on a fetched instruction is its body (R55). -/
theorem cycle_of_fetch_ok {cfg : Config} {s : State} {i : Instr} (hr : s.status = .running)
    (hf : fetch cfg s.program s.pc.toNat = .ok i) : cycle cfg s = exec i s := by
  simp [cycle, hr, hf]

/-- R18: what neither faults nor jumps ends `width` bytes on, in the counter's own arithmetic. -/
theorem Did.pc_of_sequential {s t : State} {i : Instr} (did : Did s i t)
    (noJump : i.tag ∉ [Tag.jumpAbsolute, Tag.jumpForward, Tag.jumpBackward])
    (notTaken : i.tag = .jumpIfEqual → s.flag = false) (noFault : NoFault t) :
    t.pc = s.pc + BitVec.ofNat 32 i.tag.width := by
  cases did with
  | badRegister | divByZero | jmpfOut | jmpbOut => exact absurd rfl (noFault _ _)
  | jmp | jmpf | jmpb => simp [Instr.tag] at noJump
  | jeqTaken _ _ taken => simp [notTaken rfl] at taken
  | jeqNot | hlt | invalid | load | add | sub | mul | div | eq | neq | gt | lt | gte | lte => rfl

/-- R19: a sum that stays within a program's length does not wrap, since the length is below 2^32 (D14). -/
theorem toNat_add_of_le_length {pc : Word} {n : Nat} (m : Memory) (h : pc.toNat + n ≤ m.length.val) :
    (pc + BitVec.ofNat 32 n).toNat = pc.toNat + n := by
  have := m.length.isLt
  rw [BitVec.toNat_add, BitVec.toNat_ofNat, Nat.add_mod_mod, Nat.mod_eq_of_lt (by omega)]

/-- Settles O13: the counter moves by the width (R18), and the length check keeps the sum at most `L` (R52). -/
theorem sequentialAdvanceNeverWraps : Obligations.SequentialAdvanceNeverWraps := by
  intro cfg s t i running fetched stepped noJump notTaken noFault
  have did : Did s i t := exec_did (cycle_of_fetch_ok running fetched ▸ stepped)
  have fits := fetch_ok_width_le fetched
  have pc_eq : t.pc.toNat = s.pc.toNat + i.tag.width := by
    rw [did.pc_of_sequential noJump notTaken noFault, toNat_add_of_le_length s.program fits]
  exact ⟨pc_eq, pc_eq ▸ fits⟩

end Sys2Proof.Machine
end

section
/-! PROOFS. The frame of the program (10_state.md R34): the machine has no store, so the program is the same data after
every instruction and every step; a read at any offset follows. -/

namespace Sys2Proof.Machine

/-- Every way an instruction can end is made of updates of registers, counter, flag, remainder and status only. -/
theorem Did.program_eq {s t : State} {i : Instr} (did : Did s i t) : t.program = s.program := by
  cases did with
  | badRegister | divByZero | jmpfOut | jmpbOut => exact s.raise_program _ _
  | jmp | jmpf | jmpb | jeqTaken => exact s.setPc_program _
  | jeqNot => exact s.advance_program _
  | hlt | invalid => rw [State.halt_program, State.advance_program]
  | load | add | sub | mul => rw [State.advance_program, State.setReg_program]
  | div => rw [State.advance_program, State.setRem_program, State.setReg_program]
  | eq | neq | gt | lt | gte | lte => rw [State.advance_program, State.setFlag_program]

theorem exec_program_eq {i : Instr} {s t : State} (h : exec i s = .next t) : t.program = s.program :=
  (exec_did h).program_eq

/-- A step keeps the state, halts it, raises the truncation fault or runs one instruction; none writes the program. -/
theorem cycle_program_eq {cfg : Config} {s t : State} (h : cycle cfg s = .next t) : t.program = s.program := by
  by_cases running : s.status = .running
  · rcases cycle_of_running cfg s running with ⟨-, atEnd⟩ | ⟨-, truncated⟩ | ⟨i, -, runs⟩
    · cases atEnd.symm.trans h
      exact s.halt_program _
    · cases truncated.symm.trans h
      exact s.raise_program _ _
    · exact exec_program_eq (runs.symm.trans h)
  · cases (cycle_of_not_running cfg s running).symm.trans h
    rfl

/-- Settles O40: the program is equal as data after every instruction and every step (R34), so its length and its reads
are. -/
theorem noStepWritesTheProgram : Obligations.NoStepWritesTheProgram := by
  have reads_of_eq {m m' : Memory} (e : m' = m) :
      m'.length = m.length ∧ ∀ a, m'.read? a = m.read? a := e ▸ ⟨rfl, fun _ => rfl⟩
  exact ⟨fun _ _ _ h => reads_of_eq (exec_program_eq h), fun _ _ _ h => reads_of_eq (cycle_program_eq h)⟩

end Sys2Proof.Machine
end

section
/-! PROOFS. The end of the program (30_encoding.md R50): at or past `L` there is no opcode byte to fetch, so a running
step only writes the status, and run_once reports the status it wrote (60_exceptions.md R96). -/

namespace Sys2Proof.Machine

/-- R33, R50: an offset at or past `L` holds no opcode byte. -/
theorem fetch_of_length_le (cfg : Config) {m : Memory} {start : Nat} (h : m.length.val ≤ start) :
    fetch cfg m start = .error .noOpcode := by
  simp [fetch, (m.read?_eq_none_iff start).mpr h]

/-- A running step that finds no opcode byte halts (R50). -/
theorem cycle_of_fetch_noOpcode {cfg : Config} {s : State} (hr : s.status = .running)
    (hf : fetch cfg s.program s.pc.toNat = .error .noOpcode) : cycle cfg s = .next (s.halt .endOfProgram) := by
  simp [cycle, hr, hf]

/-- run_once is the step with the report on the state after it (R96). -/
theorem runOnce_of_cycle_next {cfg : Config} {s t : State} (h : cycle cfg s = .next t) :
    runOnce cfg s = .next (t, reportOf t) := by
  simp [runOnce, h]

@[simp] theorem reportOf_halt (s : State) (reason : HaltReason) : reportOf (s.halt reason) = .stop := rfl

/-- Settles O10: past the end the fetch finds no opcode byte and the step halts; the empty program has `L = 0`, which no
counter is below. -/
theorem endOfProgramHalts : Obligations.EndOfProgramHalts := by
  have atEnd (cfg : Config) (s : State) (running : s.status = .running)
      (past : s.program.length.val ≤ s.pc.toNat) : runOnce cfg s = .next (s.halt .endOfProgram, .stop) := by
    have halts := cycle_of_fetch_noOpcode running (fetch_of_length_le cfg past)
    rw [runOnce_of_cycle_next halts, reportOf_halt]
  exact ⟨atEnd, fun cfg s running empty => atEnd cfg s running (empty ▸ Nat.zero_le _)⟩

end Sys2Proof.Machine
end

section
/-! PROOFS. HLT and the unknown opcode (40_halt.md R59, R60): a tag of width 1 is fetched from its opcode byte alone, so
neither is ever truncated, and run_once reports the halt that its body writes. -/

namespace Sys2Proof.Machine

theorem exec_hlt (s : State) : exec .hlt s = .next ((s.advance 1).halt .explicitHalt) := rfl

theorem exec_invalid (op : Byte) (s : State) : exec (.invalid op) s = .next ((s.advance 1).halt .unknownOpcode) := rfl

/-- `decode_narrow` for a known tag. -/
theorem decode_of_narrow_tag {cfg : Config} {op : Byte} {tag : Tag} (htag : tagOf cfg op = tag) (w : tag.width = 1)
    (rest : List Byte) : decode cfg (op :: rest) = .ok (assemble tag op 0 0 0, rest) := by
  subst htag
  exact decode_narrow cfg op rest w

/-- An opcode byte of width 1 is fetched wherever it stands, the last byte of the program included: the length check of
R52 asks for no byte after it. -/
theorem fetch_of_narrow_tag {cfg : Config} {m : Memory} {start : Nat} {op : Byte} {tag : Tag}
    (hop : m.read? start = some op) (htag : tagOf cfg op = tag) (w : tag.width = 1) :
    fetch cfg m start = .ok (assemble tag op 0 0 0) := by
  have fits : ¬ m.length.val < start + 1 := Nat.not_lt.mpr (m.lt_of_read?_eq_some hop)
  simp [fetch, hop, htag, w, fits, Memory.readBytes, decode_of_narrow_tag htag w]

/-- A running step on an opcode byte of width 1 whose body halts is that halt, reported as Stop (R55, R96). -/
theorem runOnce_of_narrow_halt {cfg : Config} {s t : State} {op : Byte} {tag : Tag} {reason : HaltReason}
    (running : s.status = .running) (hop : s.program.read? s.pc.toNat = some op) (htag : tagOf cfg op = tag)
    (w : tag.width = 1) (halts : exec (assemble tag op 0 0 0) s = .next (t.halt reason)) :
    runOnce cfg s = .next (t.halt reason, .stop) := by
  have stepped := (cycle_of_fetch_ok running (fetch_of_narrow_tag hop htag w)).trans halts
  rw [runOnce_of_cycle_next stepped, reportOf_halt]

/-- Settles O21: Halt has width 1, and its body advances by one byte and halts. -/
theorem haltInstructionEndsTheRun : Obligations.HaltInstructionEndsTheRun :=
  have width_one : Tag.halt.width = 1 := rfl
  ⟨exec_hlt,
    fun _ _ rest tag => decode_of_narrow_tag tag width_one rest,
    fun _ s _ running hop tag => runOnce_of_narrow_halt running hop tag width_one (exec_hlt s)⟩

/-- Settles O22: Invalid has width 1, its instruction keeps the opcode byte, and its body advances by one byte and halts. -/
theorem unknownOpcodeEndsTheRun : Obligations.UnknownOpcodeEndsTheRun :=
  have width_one : Tag.invalid.width = 1 := rfl
  ⟨exec_invalid,
    fun _ _ rest tag => decode_of_narrow_tag tag width_one rest,
    fun _ s op running hop tag => runOnce_of_narrow_halt running hop tag width_one (exec_invalid op s)⟩

end Sys2Proof.Machine
end

section
/-! PROOFS. What every instruction of width 4 shares (30_encoding.md R40, R42, R52, R54): it decodes from its four bytes,
a program that ends within them makes the step fault, and a register-index field above 31 makes the body fault. -/

namespace Sys2Proof.Machine

/-- Raising a fault at the instruction's own offset has no other effect (R88). -/
theorem faultsWith_raise (kind : FaultKind) (s : State) : FaultsWith kind s (.next (s.raise kind s.pc)) :=
  ⟨_, rfl, s.raise_status kind s.pc, s.raise_regs kind s.pc, s.raise_flag kind s.pc, s.raise_rem kind s.pc,
    s.raise_program kind s.pc⟩

/-- The range check of R54: an instruction faults on a register field, or every one of its fields names a register. -/
theorem Did.raise_or_legal {s t : State} {i : Instr} (did : Did s i t) :
    t = s.raise .registerOutOfRange s.pc ∨ ∀ f ∈ i.regFields, f.toNat < 32 := by
  cases did with
  | badRegister => exact .inl rfl
  | hlt | invalid => exact .inr (List.forall_mem_nil _)
  | load _ _ h | jmp _ h | jmpf _ h | jmpfOut _ h | jmpb _ h | jmpbOut _ h | jeqTaken _ h | jeqNot _ h =>
    exact .inr (List.forall_mem_singleton.mpr h)
  | eq _ _ h1 h2 | neq _ _ h1 h2 | gt _ _ h1 h2 | lt _ _ h1 h2 | gte _ _ h1 h2 | lte _ _ h1 h2 =>
    exact .inr (by simp [Instr.regFields, h1, h2])
  | add _ _ _ h1 h2 h3 | sub _ _ _ h1 h2 h3 | mul _ _ _ h1 h2 h3 | divByZero _ _ _ h1 h2 h3 | div _ _ _ h1 h2 h3 =>
    exact .inr (by simp [Instr.regFields, h1, h2, h3])

/-- R84: an instruction with a register-index field above 31 does nothing but fault. -/
theorem exec_of_register_out_of_range {i : Instr} (s : State) (bad : ∃ f ∈ i.regFields, 31 < f.toNat) :
    exec i s = .next (s.raise .registerOutOfRange s.pc) := by
  obtain ⟨t, runs, did⟩ := exec_answers i s
  rcases did.raise_or_legal with rfl | legal
  · exact runs
  · obtain ⟨f, hf, above⟩ := bad
    exact absurd (legal f hf) (Nat.not_lt.mpr above)

/-- `decode_wide` for a known tag. -/
theorem decode_of_wide_tag {cfg : Config} {op : Byte} {tag : Tag} (htag : tagOf cfg op = tag) (w : tag.width = 4)
    (b1 b2 b3 : Byte) (rest : List Byte) :
    decode cfg (op :: b1 :: b2 :: b3 :: rest) = .ok (assemble tag op b1 b2 b3, rest) := by
  subst htag
  exact decode_wide cfg op b1 b2 b3 rest w

/-- R52: four bytes that do not fit before the end are not fetched, whatever the operand bytes would be. -/
theorem fetch_of_truncated {cfg : Config} {m : Memory} {start : Nat} {op : Byte} (hop : m.read? start = some op)
    (w : (tagOf cfg op).width = 4) (short : m.length.val < start + 4) : fetch cfg m start = .error .truncated := by
  simp [fetch, hop, w, short]

/-- A running step on a truncated instruction faults (R57, R87). -/
theorem cycle_of_fetch_truncated {cfg : Config} {s : State} (hr : s.status = .running)
    (hf : fetch cfg s.program s.pc.toNat = .error .truncated) :
    cycle cfg s = .next (s.raise .truncatedInstruction s.pc) := by
  simp [cycle, hr, hf]

/-- An instruction has its form when its tag is of width 4 and its bytes are assembled into it. -/
theorem hasForm_of_assemble {tag : Tag} {mk : Byte → Byte → Byte → Instr} (w : tag.width = 4)
    (assembled : ∀ op b1 b2 b3, assemble tag op b1 b2 b3 = mk b1 b2 b3) : HasForm tag mk := by
  refine ⟨fun cfg op b1 b2 b3 rest htag => ?_, fun cfg s op running hop htag short => ?_, fun s b1 b2 b3 bad => ?_⟩
  · rw [decode_of_wide_tag htag w, assembled]
  · rw [cycle_of_fetch_truncated running (fetch_of_truncated hop (htag ▸ w) short)]
    exact faultsWith_raise _ s
  · rw [exec_of_register_out_of_range s bad]
    exact faultsWith_raise _ s

end Sys2Proof.Machine
end

section
/-! PROOFS. LOAD (41_load.md R61): the immediate is the big-endian number of its two bytes (R30, R43), and sign extension
keeps its signed reading. -/

namespace Sys2Proof.Machine

/-- The big-endian reading of two bytes (R30). -/
theorem immediate_toNat (b2 b3 : Byte) : (immediate b2 b3).toNat = b2.toNat * 256 + b3.toNat := by
  rw [immediate, BitVec.toNat_append, ← Nat.shiftLeft_add_eq_or_of_lt b3.isLt, Nat.shiftLeft_eq]

/-- `sext_32` keeps the signed reading, which is that of R8 for 16 bits. -/
theorem sext32_toInt (imm : Imm16) :
    (sext32 imm).toInt = if imm.toNat < 2 ^ 15 then (imm.toNat : Int) else (imm.toNat : Int) - 2 ^ 16 := by
  have top_half : 2 * imm.toNat < 2 ^ 16 ↔ imm.toNat < 2 ^ 15 := by omega
  rw [sext32, BitVec.toInt_signExtend_of_le (by decide), BitVec.toInt_eq_toNat_cond]
  simp only [top_half, Nat.cast_pow, Nat.cast_ofNat]

/-- R61 for a legal index. -/
theorem exec_load_of_legal {r : Byte} (imm : Imm16) (s : State) (h : r.toNat < 32) :
    exec (.load r imm) s = .next ((s.setReg ⟨r.toNat, h⟩ (sext32 imm)).advance 4) := by
  rw [exec, execLoad, withReg_in_range r s _ h]

/-- Settles O23: LOAD is assembled from its four bytes, and the sign-extended immediate has the signed value of R43. -/
theorem loadWritesTheSignExtendedImmediate : Obligations.LoadWritesTheSignExtendedImmediate := by
  refine ⟨hasForm_of_assemble rfl fun _ _ _ _ => rfl, fun r b2 b3 s h => ⟨sext32 (immediate b2 b3), ?_, ?_⟩⟩
  · rw [sext32_toInt, immediate_toNat]
  · exact exec_load_of_legal (immediate b2 b3) s h

end Sys2Proof.Machine
end

section
/-! PROOFS. ADD, SUB and MUL (42_arithmetic.md R62 to R66): `wrap32` narrows an exact integer as R8 writes it, and an
instruction of format RRR whose body is the arithmetic shape keeps the rule of R62. -/

namespace Sys2Proof.Machine

/-- The balanced remainder of a 32-bit word is the narrowing of R8. -/
theorem bmod_eq_narrowed (n : Int) : n.bmod (2 ^ 32) = narrowed n := by
  rw [Int.bmod_def]
  rfl

theorem wrap32_toInt (n : Int) : (wrap32 n).toInt = narrowed n :=
  (asS32_wrap32 n).trans (bmod_eq_narrowed n)

/-- R62 for any operation: both sources are read before the destination is written, so the indices may coincide. -/
theorem arithmeticRule_of_exec {tag : Tag} {mk : Byte → Byte → Byte → Instr} {op : Int → Int → Int}
    (form : HasForm tag mk) (meaning : ∀ s1 s2 d s, exec (mk s1 s2 d) s = arithmetic op s1 s2 d s) :
    ArithmeticRule tag mk op := by
  refine ⟨form, fun s1 s2 d s h1 h2 h3 => ⟨wrap32 (op (s.regs[s1.toNat]).toInt (s.regs[s2.toNat]).toInt), ?_, ?_⟩⟩
  · exact wrap32_toInt _
  · exact (meaning s1 s2 d s).trans (arithmetic_in_range op s1 s2 d s h1 h2 h3)

/-- Settles O24: ADD is assembled from its four bytes, and its body is the arithmetic shape with the sum. -/
theorem addWritesTheWrappedSum : Obligations.AddWritesTheWrappedSum :=
  arithmeticRule_of_exec (hasForm_of_assemble rfl fun _ _ _ _ => rfl) fun _ _ _ _ => rfl

/-- Settles O25: SUB is assembled from its four bytes, and its body is the arithmetic shape with the first source minus
the second. -/
theorem subWritesTheWrappedDifference : Obligations.SubWritesTheWrappedDifference :=
  arithmeticRule_of_exec (hasForm_of_assemble rfl fun _ _ _ _ => rfl) fun _ _ _ _ => rfl

/-- Settles O26: MUL is assembled from its four bytes, and its body is the arithmetic shape with the product. -/
theorem mulWritesTheWrappedProduct : Obligations.MulWritesTheWrappedProduct :=
  arithmeticRule_of_exec (hasForm_of_assemble rfl fun _ _ _ _ => rfl) fun _ _ _ _ => rfl

end Sys2Proof.Machine
end

section
/-! PROOFS. The comparisons (44_compare.md R74, R76): an instruction of format RRP whose body is the comparison shape
keeps the rule of R74 for the condition that its test on the two words decides. -/

namespace Sys2Proof.Machine

/-- R74 for any test: the flag takes the test of the two words read, and the counter moves by 4 whatever it says. -/
theorem compareRule_of_exec {tag : Tag} {mk : Byte → Byte → Instr} {test : Word → Word → Bool}
    {cond : Int → Int → Prop} (form : HasForm tag fun b1 b2 _ => mk b1 b2)
    (meaning : ∀ a b s, exec (mk a b) s = comparison test a b s)
    (decides : ∀ p q : Word, test p q = true ↔ cond p.toInt q.toInt) : CompareRule tag mk cond := by
  refine ⟨form, fun a b s h1 h2 => ⟨test s.regs[a.toNat] s.regs[b.toNat], ?_, ?_⟩⟩
  · exact decides _ _
  · exact (meaning a b s).trans (comparison_in_range test a b s h1 h2)

/-- The test of EQ is equality of the signed readings (R75). -/
theorem condEqual_iff (p q : Word) : condEqual p q = true ↔ p.toInt = q.toInt :=
  decide_eq_true_iff

/-- Settles O34: EQ is assembled from its four bytes with the padding byte dropped, and its body is the comparison shape
with the test of equality. -/
theorem equalWritesTheFlag : Obligations.EqualWritesTheFlag :=
  compareRule_of_exec (hasForm_of_assemble rfl fun _ _ _ _ => rfl) (fun _ _ _ => rfl) condEqual_iff

end Sys2Proof.Machine
end

section
/-! PROOFS. The host's run (60_exceptions.md R96, R97): every step answers a state, run_once reports on it, and since a
step in a terminal status changes nothing (R49), stopping at the first terminal status and stepping on end in the same
state. -/

namespace Sys2Proof.Machine

/-- R83, R90: no state stops the model; a fault of the machine is a next state. -/
theorem cycle_answers (cfg : Config) (s : State) : ∃ t, cycle cfg s = .next t := by
  rcases eq_or_ne s.status .running with running | terminal
  · rcases cycle_of_running cfg s running with ⟨-, atEnd⟩ | ⟨-, truncated⟩ | ⟨i, -, runs⟩
    · exact ⟨_, atEnd⟩
    · exact ⟨_, truncated⟩
    · obtain ⟨t, answers, -⟩ := exec_answers i s
      exact ⟨t, runs.trans answers⟩
  · exact ⟨s, cycle_of_not_running cfg s terminal⟩

theorem reportOf_of_not_running {s : State} (terminal : s.status ≠ .running) : reportOf s = .stop :=
  if_pos (s.status.terminal_iff.mpr terminal)

theorem reportOf_of_running {s : State} (running : s.status = .running) : reportOf s = .continue := by
  rw [reportOf, running]
  rfl

/-- The report of R96. -/
theorem reportOf_eq_stop_iff (s : State) : reportOf s = .stop ↔ s.status ≠ .running := by
  refine ⟨fun stop running => ?_, reportOf_of_not_running⟩
  cases (reportOf_of_running running).symm.trans stop

/-- Settles O5: the step answers a state, and run_once adds the report on it. -/
theorem runOnceReportsStopWhenTerminal : Obligations.RunOnceReportsStopWhenTerminal := by
  intro cfg s
  obtain ⟨t, stepped⟩ := cycle_answers cfg s
  exact ⟨t, reportOf t, runOnce_of_cycle_next stepped, stepped, reportOf_eq_stop_iff t⟩

/-- Steps after a first one go on from where it ended. -/
theorem steps_succ_of_cycle_next {cfg : Config} {s t : State} (n : Nat) (stepped : cycle cfg s = .next t) :
    steps cfg (n + 1) s = steps cfg n t := by
  simp [steps, stepped]

/-- R49 for any number of steps. -/
theorem steps_of_not_running (cfg : Config) (n : Nat) {s : State} (terminal : s.status ≠ .running) :
    steps cfg n s = .next s := by
  induction n with
  | zero => rfl
  | succ n ih => rw [steps_succ_of_cycle_next n (cycle_of_not_running cfg s terminal), ih]

/-- A run ends with the step that reports Stop (R97). -/
theorem runBounded_of_stop {cfg : Config} {s t : State} (stopNow : State → Bool) (n : Nat)
    (stepped : cycle cfg s = .next t) (terminal : t.status ≠ .running) :
    runBounded cfg stopNow (n + 1) s = .next t := by
  simp [runBounded, runOnce_of_cycle_next stepped, reportOf_of_not_running terminal]

/-- A run that no predicate ends goes on after a step that reports Continue (R97). -/
theorem runBounded_of_continue {cfg : Config} {s t : State} (n : Nat)
    (stepped : cycle cfg s = .next t) (running : t.status = .running) :
    runBounded cfg (fun _ => false) (n + 1) s = runBounded cfg (fun _ => false) n t := by
  simp [runBounded, runOnce_of_cycle_next stepped, reportOf_of_running running]

/-- A run with a budget ends where as many steps as the budget end, whether or not it stopped before. -/
theorem runBounded_eq_steps (cfg : Config) (n : Nat) (s : State) :
    runBounded cfg (fun _ => false) n s = steps cfg n s := by
  induction n generalizing s with
  | zero => rfl
  | succ n ih =>
    obtain ⟨t, stepped⟩ := cycle_answers cfg s
    rw [steps_succ_of_cycle_next n stepped]
    rcases eq_or_ne t.status .running with running | terminal
    · rw [runBounded_of_continue n stepped running, ih]
    · rw [runBounded_of_stop _ n stepped terminal, steps_of_not_running cfg n terminal]

/-- Settles O6: a run that returns is a positive number of steps that ends in a terminal status. -/
theorem runReturnsTheTerminalState : Obligations.RunReturnsTheTerminalState := by
  intro cfg s t
  constructor
  · rintro ⟨n, returned, terminal, positive⟩
    obtain ⟨k, rfl⟩ := Nat.exists_eq_add_one.mpr positive
    exact ⟨t.status.terminal_iff.mp terminal, k, runBounded_eq_steps cfg (k + 1) s ▸ returned⟩
  · rintro ⟨terminal, n, ends⟩
    exact ⟨n + 1, (runBounded_eq_steps cfg (n + 1) s).trans ends, t.status.terminal_iff.mpr terminal, n.succ_pos⟩

end Sys2Proof.Machine
end

section
/-! PROOFS. The faults of an instruction (60_exceptions.md R84 to R86), in both directions: each cause makes the body
raise its fault, and an instruction that ends in a fault met that fault's cause. -/

namespace Sys2Proof.Machine

/-- What makes an instruction run from a state fault, by the fault (R84 to R86). A truncated instruction is not run. -/
def FaultCause (s : State) (i : Instr) : FaultKind → Prop
  | .registerOutOfRange => ∃ f ∈ i.regFields, 31 < f.toNat
  | .divisionByZero => ∃ s1 s2 d, i = .div s1 s2 d ∧ ∃ _ : s2.toNat < 32, s.regs[s2.toNat] = 0
  | .jumpOutOfBounds => ∃ r, ∃ _ : r.toNat < 32,
      (i = .jmpf r ∧ s.program.length.val < s.pc.toNat + (s.regs[r.toNat]).toNat) ∨
      (i = .jmpb r ∧ s.pc.toNat < (s.regs[r.toNat]).toNat)
  | .truncatedInstruction => False

/-- Only the pattern 0 reads as the integer 0 (R8). -/
theorem asS32_eq_zero_iff (v : Word) : asS32 v = 0 ↔ v = 0 :=
  BitVec.toInt_inj (y := (0 : Word))

/-- The inversion of a fault: no instruction faults without its cause. -/
theorem Did.faultCause {s t : State} {i : Instr} {kind : FaultKind} {off : Word} (did : Did s i t)
    (running : s.status = .running) (faulted : t.status = .faulted kind off) : FaultCause s i kind := by
  cases did with
  | badRegister bad =>
    cases faulted
    exact bad
  | divByZero s1 s2 d _ h2 _ zero =>
    cases faulted
    exact ⟨s1, s2, d, rfl, h2, (asS32_eq_zero_iff _).mp zero⟩
  | jmpfOut r h past =>
    cases faulted
    exact ⟨r, h, .inl ⟨rfl, past⟩⟩
  | jmpbOut r h below =>
    cases faulted
    exact ⟨r, h, .inr ⟨rfl, below⟩⟩
  | hlt | invalid => cases faulted
  | load | add | sub | mul | div | jmp | jmpf | jmpb | jeqTaken | jeqNot | eq | neq | gt | lt | gte | lte =>
    cases running.symm.trans faulted

/-- R85 for legal indices. -/
theorem exec_div_of_zero_divisor {s1 s2 d : Byte} {s : State} (h1 : s1.toNat < 32) (h2 : s2.toNat < 32)
    (h3 : d.toNat < 32) (zero : s.regs[s2.toNat] = 0) :
    exec (.div s1 s2 d) s = .next (s.raise .divisionByZero s.pc) := by
  have zeroInt : asS32 (s.reg ⟨s2.toNat, h2⟩) = 0 := (asS32_eq_zero_iff _).mpr zero
  rw [exec, execDiv, withReg3_in_range s1 s2 d s _ h1 h2 h3]
  exact if_pos zeroInt

/-- R71 and R86 past the end. -/
theorem exec_jmpf_of_past_end {r : Byte} {s : State} (h : r.toNat < 32)
    (past : s.program.length.val < s.pc.toNat + (s.regs[r.toNat]).toNat) :
    exec (.jmpf r) s = .next (s.raise .jumpOutOfBounds s.pc) := by
  rw [exec, execJmpf, withReg_in_range r s _ h]
  exact if_pos past

/-- R72 and R86 below 0. -/
theorem exec_jmpb_of_below_zero {r : Byte} {s : State} (h : r.toNat < 32)
    (below : s.pc.toNat < (s.regs[r.toNat]).toNat) :
    exec (.jmpb r) s = .next (s.raise .jumpOutOfBounds s.pc) := by
  rw [exec, execJmpb, withReg_in_range r s _ h]
  exact if_pos below

/-- Settles O14: a field above 31 makes any instruction fault (R54), and no other way of ending raises this fault. -/
theorem registerOutOfRangeExactly : Obligations.RegisterOutOfRangeExactly := by
  refine ⟨fun i s bad => ?_, fun i s t off running runs faulted => (exec_did runs).faultCause running faulted⟩
  rw [exec_of_register_out_of_range s bad]
  exact faultsWith_raise _ s

/-- Settles O15: DIV faults on a divisor of 0, and no other way of ending raises this fault. -/
theorem divisionByZeroExactly : Obligations.DivisionByZeroExactly := by
  refine ⟨fun s1 s2 d s h1 h2 h3 zero => ?_,
    fun i s t off running runs faulted => (exec_did runs).faultCause running faulted⟩
  rw [exec_div_of_zero_divisor h1 h2 h3 zero]
  exact faultsWith_raise _ s

/-- Settles O16: JMPF past `L` and JMPB below 0 fault, and no other way of ending raises this fault. -/
theorem jumpOutOfBoundsExactly : Obligations.JumpOutOfBoundsExactly := by
  refine ⟨fun r s h => ⟨fun past => ?_, fun below => ?_⟩,
    fun i s t off running runs faulted => (exec_did runs).faultCause running faulted⟩
  · rw [exec_jmpf_of_past_end h past]
    exact faultsWith_raise _ s
  · rw [exec_jmpb_of_below_zero h below]
    exact faultsWith_raise _ s

end Sys2Proof.Machine
end

section
/-! PROOFS. The halts of a step (60_exceptions.md R82), in both directions: each cause decides the state that the step
answers, and a step that ends in a halt met that halt's cause. -/

namespace Sys2Proof.Machine

/-- What makes a running step halt, by the reason (R50, R59, R60). -/
def HaltCause (cfg : Config) (s : State) : HaltReason → Prop
  | .explicitHalt => ∃ op, s.program.read? s.pc.toNat = some op ∧ tagOf cfg op = .halt
  | .endOfProgram => s.program.length.val ≤ s.pc.toNat
  | .unknownOpcode => ∃ op, s.program.read? s.pc.toNat = some op ∧ tagOf cfg op = .invalid

/-- The state a halting step answers: HLT and (Invalid) move the counter past their one byte (C4), the end of the
program keeps it. -/
def State.haltedBy (s : State) : HaltReason → State
  | .explicitHalt => (s.advance 1).halt .explicitHalt
  | .endOfProgram => s.halt .endOfProgram
  | .unknownOpcode => (s.advance 1).halt .unknownOpcode

@[simp] theorem State.haltedBy_status (s : State) (reason : HaltReason) :
    (s.haltedBy reason).status = .halted reason := by
  cases reason <;> rfl

/-- Each cause alone decides the step. -/
theorem cycle_of_haltCause {cfg : Config} {s : State} {reason : HaltReason} (running : s.status = .running)
    (cause : HaltCause cfg s reason) : cycle cfg s = .next (s.haltedBy reason) := by
  cases reason with
  | explicitHalt =>
    obtain ⟨op, hop, htag⟩ := cause
    exact cycle_of_fetch_ok running (fetch_of_narrow_tag hop htag rfl)
  | endOfProgram => exact cycle_of_fetch_noOpcode running (fetch_of_length_le cfg cause)
  | unknownOpcode =>
    obtain ⟨op, hop, htag⟩ := cause
    exact cycle_of_fetch_ok running (fetch_of_narrow_tag hop htag rfl)

/-- R50: the fetch finds no opcode byte only at or past `L`. -/
theorem length_le_of_fetch_noOpcode {cfg : Config} {m : Memory} {start : Nat}
    (h : fetch cfg m start = .error .noOpcode) : m.length.val ≤ start := by
  rcases fetch_cases cfg m start with
    ⟨past, -⟩ | ⟨_, -, -, -, e⟩ | ⟨_, -, -, e⟩ | ⟨_, _, _, _, -, -, -, -, -, -, e⟩
  · exact past
  all_goals cases e.symm.trans h

/-- The tag of a fetched instruction is that of the opcode byte at its offset (R51, R53). -/
theorem opcode_of_fetch_ok {cfg : Config} {m : Memory} {start : Nat} {i : Instr} (h : fetch cfg m start = .ok i) :
    ∃ op, m.read? start = some op ∧ tagOf cfg op = i.tag := by
  rcases fetch_cases cfg m start with
    ⟨-, e⟩ | ⟨_, -, -, -, e⟩ | ⟨op, hop, -, e⟩ | ⟨op, _, _, _, hop, -, -, -, -, -, e⟩
  · cases e.symm.trans h
  · cases e.symm.trans h
  all_goals
    obtain rfl := Except.ok.inj (e.symm.trans h)
    exact ⟨op, hop, (assemble_tag ..).symm⟩

/-- The inversion of a halt: only HLT and (Invalid) halt by themselves. -/
theorem Did.haltCause {cfg : Config} {s t : State} {i : Instr} {op : Byte} {reason : HaltReason} (did : Did s i t)
    (running : s.status = .running) (hop : s.program.read? s.pc.toNat = some op) (htag : tagOf cfg op = i.tag)
    (halted : t.status = .halted reason) : HaltCause cfg s reason := by
  cases did with
  | hlt | invalid =>
    cases halted
    exact ⟨op, hop, htag⟩
  | badRegister | divByZero | jmpfOut | jmpbOut => cases halted
  | load | add | sub | mul | div | jmp | jmpf | jmpb | jeqTaken | jeqNot | eq | neq | gt | lt | gte | lte =>
    cases running.symm.trans halted

/-- No running step halts without its cause. -/
theorem haltCause_of_cycle {cfg : Config} {s t : State} {reason : HaltReason} (running : s.status = .running)
    (stepped : cycle cfg s = .next t) (halted : t.status = .halted reason) : HaltCause cfg s reason := by
  rcases cycle_of_running cfg s running with ⟨noOpcode, atEnd⟩ | ⟨-, truncated⟩ | ⟨i, fetched, runs⟩
  · cases atEnd.symm.trans stepped
    cases halted
    exact length_le_of_fetch_noOpcode noOpcode
  · cases truncated.symm.trans stepped
    cases halted
  · obtain ⟨op, hop, htag⟩ := opcode_of_fetch_ok fetched
    exact (exec_did (runs.symm.trans stepped)).haltCause running hop htag halted

/-- Settles O19: a halt has its cause, and the cause decides the whole state after the step. -/
theorem haltReasonsExactly : Obligations.HaltReasonsExactly := by
  intro cfg s t reason running stepped
  have cause_of_halted : t.status = .halted reason → HaltCause cfg s reason := haltCause_of_cycle running stepped
  have state_of_cause (cause : HaltCause cfg s reason) : t = s.haltedBy reason :=
    Host.Outcome.next.inj (stepped.symm.trans (cycle_of_haltCause running cause))
  have halted_iff : t.status = .halted reason ↔ HaltCause cfg s reason :=
    ⟨cause_of_halted, fun cause => state_of_cause cause ▸ s.haltedBy_status reason⟩
  have state_of_halted (halted : t.status = .halted reason) : t = s.haltedBy reason :=
    state_of_cause (cause_of_halted halted)
  cases reason <;> exact ⟨halted_iff, state_of_halted⟩

end Sys2Proof.Machine
end

section
/-! PROOFS. The state after construct-fresh (70_reset_and_hazards.md R105): every register is 0, and the empty program
has no offset to read. -/

namespace Sys2Proof.Machine

/-- R13, R105: all 32 registers are 0, so an index needs no case. -/
@[simp] theorem State.reset_getElem_regs {r : Nat} (h : r < 32) : State.reset.regs[r] = 0 :=
  Vector.getElem_replicate h

/-- R26, R33: every offset is at or past the length 0 of the empty program. -/
@[simp] theorem Memory.read?_empty (a : Nat) : Memory.empty.read? a = none :=
  (Memory.empty.read?_eq_none_iff a).mpr a.zero_le

/-- Settles O1: the registers and the program by the lemmas above, each scalar field by the definition of reset. -/
theorem resetIsConstructFresh : Obligations.ResetIsConstructFresh :=
  have registers_zero (r : Fin 32) : State.reset.regs[r.val] = 0 := State.reset_getElem_regs r.isLt
  have no_byte (a : Nat) : State.reset.program.read? a = none := Memory.read?_empty a
  ⟨registers_zero, rfl, rfl, rfl, rfl, rfl, no_byte, rfl⟩

end Sys2Proof.Machine
end

section
/-! PROOFS. The codes of the tags (30_encoding.md R46, R48; 00_scope.md R6): the codes 0 to 8 number the nine mapped
tags each once, those from 9 on are fixed, so `opcodeOf` and `tagOf` undo each other on every tag that is present. -/

namespace Sys2Proof.Machine

/-- The codes 0 to 8 by `OPCODE_MAP` (R46). -/
theorem tagOf_of_lt (cfg : Config) {op : Byte} (h : op.toNat < 9) : tagOf cfg op = cfg.opcodeMap[op.toNat] :=
  dif_pos h

/-- Settles O48: the chain of literal codes from 9 to 15 is the list of extended tags, read from 10 on. -/
theorem codesFromNineOnAreFixed : Obligations.CodesFromNineOnAreFixed := by
  intro cfg op fromNine
  rw [tagOf, dif_neg (Nat.not_lt.mpr fromNine)]
  split
  case h_8 =>
    simp only [imp_false] at *
    have past : 6 ≤ op.toNat - 10 := by omega
    rw [if_neg ‹¬ op.toNat = 9›, List.getD_eq_default _ _ past, ite_self]
  all_goals
    rename_i code
    simp [code]

/-- Settles O47: the decode function evaluates to the table's entry on each of the 256 bytes. -/
theorem decodeTableOfThisHardware : Obligations.DecodeTableOfThisHardware := by
  unfold Obligations.DecodeTableOfThisHardware
  decide

theorem mem_opcodeMap_iff (cfg : Config) (tag : Tag) : tag ∈ cfg.opcodeMap.toList ↔ tag ∈ mappedTags :=
  cfg.bijective.mem_iff

/-- No tag has two codes below 9 (R6). -/
theorem opcodeMap_nodup (cfg : Config) : cfg.opcodeMap.toList.Nodup :=
  cfg.bijective.nodup_iff.mpr (by decide)

theorem tagOf_mem_mappedTags_of_lt (cfg : Config) {op : Byte} (h : op.toNat < 9) : tagOf cfg op ∈ mappedTags := by
  rw [← mem_opcodeMap_iff cfg, tagOf_of_lt cfg h, Vector.mem_toList_iff]
  exact Vector.getElem_mem h

/-- The tags from 9 on are none of the mapped ones (R46). -/
theorem lt_nine_of_tagOf_mem_mappedTags {cfg : Config} {op : Byte} (h : tagOf cfg op ∈ mappedTags) :
    op.toNat < 9 := by
  by_contra fromNine
  rw [tagOf, dif_neg fromNine] at h
  revert h
  split <;> cases cfg.extCmp <;> decide

/-- `EXT_CMP` alone decides whether an extended tag is present (R46). -/
theorem extCmp_of_tagOf_extended {cfg : Config} {op : Byte} (h : (tagOf cfg op).extended = true) :
    cfg.extCmp = true := by
  by_contra absent
  rcases Nat.lt_or_ge op.toNat 9 with mapped | fromNine
  · have notExtended : ∀ tag ∈ mappedTags, tag.extended = false := by decide
    simp [notExtended _ (tagOf_mem_mappedTags_of_lt cfg mapped)] at h
  · rw [codesFromNineOnAreFixed cfg op fromNine, if_neg absent] at h
    split at h <;> cases h

/-- The code of a mapped tag is its place in `OPCODE_MAP` (R46). -/
theorem opcodeOf_toNat_of_mapped (cfg : Config) {tag : Tag} (h : tag ∈ mappedTags) :
    (opcodeOf cfg tag).toNat = cfg.opcodeMap.toList.idxOf tag := by
  have place : cfg.opcodeMap.toList.idxOf tag < 9 := by
    simpa using List.idxOf_lt_length_iff.mpr ((mem_opcodeMap_iff cfg tag).mpr h)
  have code : opcodeOf cfg tag = BitVec.ofNat 8 (cfg.opcodeMap.toList.idxOf tag) := by
    revert h
    cases tag <;> simp [mappedTags, opcodeOf]
  rw [code, BitVec.toNat_ofNat, Nat.mod_eq_of_lt (by omega)]

/-- The code of a present tag decodes to it (R46). -/
theorem tagOf_opcodeOf {cfg : Config} {tag : Tag} (present : tag.extended = true → cfg.extCmp = true) :
    tagOf cfg (opcodeOf cfg tag) = tag := by
  by_cases mapped : tag ∈ mappedTags
  · have place := List.idxOf_lt_length_iff.mpr ((mem_opcodeMap_iff cfg tag).mpr mapped)
    have code := opcodeOf_toNat_of_mapped cfg mapped
    have below : (opcodeOf cfg tag).toNat < 9 := by simpa [code] using place
    rw [tagOf_of_lt cfg below]
    simp only [code]
    exact List.getElem_idxOf place
  · cases tag with
    | halt | load | add | sub | mul | div | jumpAbsolute | jumpForward | jumpBackward => exact absurd (by decide) mapped
    | equal | invalid => rfl
    | notEqual | greaterThan | lessThan | greaterOrEqual | lessOrEqual | jumpIfEqual =>
      simp [opcodeOf, tagOf, present rfl]

/-- A byte with a mapped tag is that tag's code (R6). -/
theorem opcodeOf_tagOf_of_lt (cfg : Config) {op : Byte} (h : op.toNat < 9) : opcodeOf cfg (tagOf cfg op) = op := by
  apply BitVec.eq_of_toNat_eq
  rw [opcodeOf_toNat_of_mapped cfg (tagOf_mem_mappedTags_of_lt cfg h), tagOf_of_lt cfg h]
  exact (opcodeMap_nodup cfg).idxOf_getElem op.toNat (by simpa using h)

/-- Only the bytes of (Invalid) are not determined by their tag (R46, R48). -/
theorem opcodeOf_tagOf {cfg : Config} {op : Byte} (h : tagOf cfg op ≠ .invalid) : opcodeOf cfg (tagOf cfg op) = op := by
  rcases Nat.lt_or_ge op.toNat 9 with mapped | fromNine
  · exact opcodeOf_tagOf_of_lt cfg mapped
  · apply BitVec.eq_of_toNat_eq
    revert h
    rw [tagOf, dif_neg (Nat.not_lt.mpr fromNine)]
    split <;> cases cfg.extCmp <;> simp_all [opcodeOf]

/-- The codes that no instruction defines decode to Invalid (R48). -/
theorem tagOf_of_unassigned {cfg : Config} {op : Byte} (h : unassignedOpcode cfg op = true) :
    tagOf cfg op = .invalid := by
  simp only [unassignedOpcode, Bool.or_eq_true, Bool.and_eq_true, Bool.not_eq_true', decide_eq_true_eq] at h
  rw [codesFromNineOnAreFixed cfg op (by omega), if_neg (by omega)]
  rcases h with past | ⟨absent, -⟩
  · have pastList : 6 ≤ op.toNat - 10 := by omega
    rw [List.getD_eq_default _ _ pastList, ite_self]
  · rw [absent, if_neg Bool.false_ne_true]

/-- Settles O49: the code is the tag's place in `OPCODE_MAP`, and a byte with that tag is below 9 and so its code. -/
theorem eachMappedTagHasOneCode : Obligations.EachMappedTagHasOneCode := by
  intro cfg tag mapped
  have notExtended : ∀ tag ∈ mappedTags, tag.extended = false := by decide
  have decodes : tagOf cfg (opcodeOf cfg tag) = tag := tagOf_opcodeOf (by simp [notExtended tag mapped])
  refine ⟨opcodeOf cfg tag, ?_, decodes, ?_⟩
  · exact Nat.le_of_lt_succ (lt_nine_of_tagOf_mem_mappedTags (decodes.symm ▸ mapped))
  · rintro op rfl
    exact (opcodeOf_tagOf_of_lt cfg (lt_nine_of_tagOf_mem_mappedTags mapped)).symm

end Sys2Proof.Machine
end

section
/-! PROOFS. The decoder and the encoder (30_encoding.md R39 to R48): what a decoding can answer is said once, and the
operand bytes that the encoder writes are those that the decoder assembles, padding aside. -/

namespace Sys2Proof.Machine

/-- Every answer of `decode` where there is an opcode byte (R39, R40, R47): an instruction of width 1, one of width 4,
or missing operand bytes. -/
theorem decode_cons_cases (cfg : Config) (op : Byte) (operands : List Byte) :
    ((tagOf cfg op).width = 1 ∧ decode cfg (op :: operands) = .ok (assemble (tagOf cfg op) op 0 0 0, operands)) ∨
    (∃ b1 b2 b3 rest, operands = b1 :: b2 :: b3 :: rest ∧ (tagOf cfg op).width = 4 ∧
      decode cfg (op :: operands) = .ok (assemble (tagOf cfg op) op b1 b2 b3, rest)) ∨
    ((tagOf cfg op).width = 4 ∧ operands.length < 3 ∧ decode cfg (op :: operands) = .error .truncated) := by
  rcases Tag.width_eq_one_or_four (tagOf cfg op) with narrow | wide
  · exact .inl ⟨narrow, decode_narrow cfg op operands narrow⟩
  · match operands with
    | b1 :: b2 :: b3 :: rest => exact .inr (.inl ⟨b1, b2, b3, rest, rfl, wide, decode_wide cfg op b1 b2 b3 rest wide⟩)
    | [] | [_] | [_, _] => exact .inr (.inr ⟨wide, by simp, by simp [decode, wide]⟩)

/-- What a decoding that answers took: one byte of a tag of width 1, or four bytes of a tag of width 4 (R39, R40). -/
theorem decode_ok_cases {cfg : Config} {bytes rest : List Byte} {i : Instr} (h : decode cfg bytes = .ok (i, rest)) :
    (∃ op, bytes = op :: rest ∧ (tagOf cfg op).width = 1 ∧ i = assemble (tagOf cfg op) op 0 0 0) ∨
    (∃ op b1 b2 b3, bytes = op :: b1 :: b2 :: b3 :: rest ∧ (tagOf cfg op).width = 4 ∧
      i = assemble (tagOf cfg op) op b1 b2 b3) := by
  cases bytes with
  | nil => cases h
  | cons op operands =>
    rcases decode_cons_cases cfg op operands with ⟨narrow, e⟩ | ⟨b1, b2, b3, after, rfl, wide, e⟩ | ⟨-, -, e⟩
    · cases e.symm.trans h
      exact .inl ⟨op, rfl, narrow, rfl⟩
    · cases e.symm.trans h
      exact .inr ⟨op, b1, b2, b3, rfl, wide, rfl⟩
    · cases e.symm.trans h

/-- Settles O46: without bytes there is no opcode byte; with one, only operand bytes can be missing. -/
theorem decodeRejectsOnlyMissingBytes : Obligations.DecodeRejectsOnlyMissingBytes := by
  intro cfg bytes
  cases bytes with
  | nil => simp [decode]
  | cons op operands =>
    rcases decode_cons_cases cfg op operands with ⟨narrow, e⟩ | ⟨b1, b2, b3, rest, rfl, wide, e⟩ | ⟨wide, short, e⟩
    · simp [e, narrow]
    · simp [e]
    · simp [e, wide, short]

/-- The two bytes of an immediate, high byte first, are the immediate again (R30, R43). -/
theorem immediate_extract (imm : Imm16) : immediate (imm.extractLsb' 8 8) (imm.extractLsb' 0 8) = imm :=
  BitVec.extractLsb'_append_extractLsb'

theorem immediate_high (b2 b3 : Byte) : (immediate b2 b3).extractLsb' 8 8 = b2 := by
  rw [immediate, BitVec.extractLsb'_append_eq_of_le (Nat.le_refl 8)]
  exact BitVec.extractLsb'_eq_self

theorem immediate_low (b2 b3 : Byte) : (immediate b2 b3).extractLsb' 0 8 = b3 := by
  rw [immediate, BitVec.extractLsb'_append_eq_of_add_le (Nat.le_refl 8)]
  exact BitVec.extractLsb'_eq_self

/-- An instruction of width 4 is encoded as its tag's code and three operand bytes that assemble into it (R40, R58). -/
theorem encode_of_wide (cfg : Config) {i : Instr} (wide : i.tag.width = 4) :
    ∃ b1 b2 b3, encode cfg i = [opcodeOf cfg i.tag, b1, b2, b3] ∧ ∀ op, assemble i.tag op b1 b2 b3 = i := by
  cases i with
  | hlt | invalid => cases wide
  | load r imm =>
    exact ⟨r, _, _, rfl, fun _ => congrArg (Instr.load r) (immediate_extract imm)⟩
  | add | sub | mul | div | jmp | jmpf | jmpb | eq | neq | gt | lt | gte | lte | jeq =>
    exact ⟨_, _, _, rfl, fun _ => rfl⟩

/-- An instruction of width 1 is encoded as one byte, which assembles into it (R40, R48). -/
theorem encode_of_narrow {cfg : Config} {i : Instr} (narrow : i.tag.width = 1) (fits : i.opcodeFits cfg = true) :
    ∃ op, encode cfg i = [op] ∧ tagOf cfg op = i.tag ∧ assemble i.tag op 0 0 0 = i := by
  cases i with
  | hlt => exact ⟨opcodeOf cfg .halt, rfl, tagOf_opcodeOf fun extended => (nomatch extended), rfl⟩
  | invalid op => exact ⟨op, rfl, tagOf_of_unassigned fits, rfl⟩
  | load | add | sub | mul | div | jmp | jmpf | jmpb | eq | neq | gt | lt | gte | lte | jeq => cases narrow

/-- Settles O44: the opcode byte of the encoding has the instruction's tag, and its operand bytes assemble into it. -/
theorem decodeOfEncodeIsTheInstruction : Obligations.DecodeOfEncodeIsTheInstruction := by
  intro cfg i rest wellFormed
  simp only [Instr.wellFormed, Bool.and_eq_true] at wellFormed
  obtain ⟨⟨-, present⟩, fits⟩ := wellFormed
  rcases Tag.width_eq_one_or_four i.tag with narrow | wide
  · obtain ⟨op, encoded, htag, assembled⟩ := encode_of_narrow narrow fits
    rw [encoded, List.singleton_append, decode_of_narrow_tag htag narrow, assembled]
  · obtain ⟨b1, b2, b3, encoded, assembled⟩ := encode_of_wide cfg wide
    have htag : tagOf cfg (opcodeOf cfg i.tag) = i.tag :=
      tagOf_opcodeOf fun extended => by simpa [extended] using present
    simp only [encoded, List.cons_append, List.nil_append]
    rw [decode_of_wide_tag htag wide, assembled]

/-- The encoder writes as many bytes as the tag is wide (R39, R41). -/
theorem encode_length (cfg : Config) (i : Instr) : (encode cfg i).length = i.tag.width := by
  cases i <;> rfl

/-- An instruction assembled from one byte is encoded as that byte (R40). -/
theorem encode_assemble_of_narrow {cfg : Config} {op : Byte} (narrow : (tagOf cfg op).width = 1) :
    encode cfg (assemble (tagOf cfg op) op 0 0 0) = [op] := by
  by_cases invalid : tagOf cfg op = .invalid
  · rw [invalid]
    rfl
  · have code := opcodeOf_tagOf invalid
    generalize tagOf cfg op = tag at *
    cases tag with
    | halt => exact congrArg (fun b => [b]) code
    | invalid => exact absurd rfl invalid
    | _ => cases narrow

/-- LOAD has no padding: its encoding is the four bytes it was assembled from (R43). -/
theorem encode_assemble_load (cfg : Config) (op b1 b2 b3 : Byte) :
    encode cfg (assemble .load op b1 b2 b3) = [opcodeOf cfg .load, b1, b2, b3] := by
  rw [assemble, encode, immediate_high, immediate_low]
  rfl

/-- The encoding agrees with the bytes it was assembled from up to the last register field (R42, R44). -/
theorem take_encode_assemble (cfg : Config) {tag : Tag} (wide : tag.width = 4) (op b1 b2 b3 : Byte) :
    (encode cfg (assemble tag op b1 b2 b3)).take (1 + (assemble tag op b1 b2 b3).regFields.length) =
      [opcodeOf cfg tag, b1, b2, b3].take (1 + (assemble tag op b1 b2 b3).regFields.length) := by
  cases tag with
  | halt | invalid => cases wide
  | _ => rfl

/-- Settles O45: an opcode byte that is not (Invalid)'s is its tag's code, and the encoding repeats every byte but the
padding. -/
theorem decodedBytesAreTheEncodingButForPadding : Obligations.DecodedBytesAreTheEncodingButForPadding := by
  intro cfg bytes i rest decoded
  rcases decode_ok_cases decoded with ⟨op, rfl, narrow, rfl⟩ | ⟨op, b1, b2, b3, rfl, wide, rfl⟩
  · refine ⟨[op], rfl, by rw [assemble_tag, narrow]; rfl, encode_length _ _, fun k _ => ?_⟩
    rw [encode_assemble_of_narrow narrow]
  · have code : opcodeOf cfg (tagOf cfg op) = op := opcodeOf_tagOf fun invalid => by simp [invalid, Tag.width] at wide
    refine ⟨[op, b1, b2, b3], rfl, by rw [assemble_tag, wide]; rfl, encode_length _ _, ?_⟩
    rintro k (field | load)
    · have agree := congrArg (·[k]?) (take_encode_assemble cfg wide op b1 b2 b3)
      simp only [List.getElem?_take_of_lt field, code] at agree
      exact agree.symm
    · rw [assemble_tag] at load
      rw [load] at code ⊢
      rw [encode_assemble_load, code]

/-- A comparison keeps no third operand byte (R44). -/
theorem assemble_of_comparison {tag : Tag} (h : tag ∈ comparisonTags) (op b1 b2 b3 p3 : Byte) :
    tag.width = 4 ∧ assemble tag op b1 b2 b3 = assemble tag op b1 b2 p3 := by
  cases tag with
  | equal | notEqual | greaterThan | lessThan | greaterOrEqual | lessOrEqual => exact ⟨rfl, rfl⟩
  | _ => exact absurd h (by decide)

/-- A jump keeps no second and no third operand byte (R44). -/
theorem assemble_of_jump {tag : Tag} (h : tag ∈ [Tag.jumpAbsolute, .jumpForward, .jumpBackward, .jumpIfEqual])
    (op b1 b2 b3 p2 p3 : Byte) : tag.width = 4 ∧ assemble tag op b1 b2 b3 = assemble tag op b1 p2 p3 := by
  cases tag with
  | jumpAbsolute | jumpForward | jumpBackward | jumpIfEqual => exact ⟨rfl, rfl⟩
  | _ => exact absurd h (by decide)

/-- Settles O50: both byte sequences assemble into the same instruction. -/
theorem paddingBytesHaveNoEffect : Obligations.PaddingBytesHaveNoEffect := by
  intro cfg op b1 b2 b3 p2 p3 rest
  refine ⟨fun comparison => ?_, fun jump => ?_⟩
  · obtain ⟨wide, same⟩ := assemble_of_comparison comparison op b1 b2 b3 p3
    rw [decode_wide _ _ _ _ _ _ wide, decode_wide _ _ _ _ _ _ wide, same]
  · obtain ⟨wide, same⟩ := assemble_of_jump jump op b1 b2 b3 p2 p3
    rw [decode_wide _ _ _ _ _ _ wide, decode_wide _ _ _ _ _ _ wide, same]

/-- Settles O51: each word is written out, and the decoder evaluates on it. -/
theorem writtenOutWordsDecode : Obligations.WrittenOutWordsDecode :=
  ⟨rfl, rfl, rfl, rfl, rfl, rfl, rfl⟩

end Sys2Proof.Machine
end

section
/-! PROOFS. The faults of a step (30_encoding.md R52; 60_exceptions.md R87, R88): a step that faults met the fault's
cause, and wrote nothing but the status and the counter. -/

namespace Sys2Proof.Machine

/-- R52: the fetch is truncated only where an opcode byte of width 4 stands too close to the end. -/
theorem opcode_of_fetch_truncated {cfg : Config} {m : Memory} {start : Nat}
    (h : fetch cfg m start = .error .truncated) :
    ∃ op, m.read? start = some op ∧ (tagOf cfg op).width = 4 ∧ m.length.val < start + 4 := by
  rcases fetch_cases cfg m start with
    ⟨-, e⟩ | ⟨op, hop, wide, short, -⟩ | ⟨_, -, -, e⟩ | ⟨_, _, _, _, -, -, -, -, -, -, e⟩
  · cases e.symm.trans h
  · exact ⟨op, hop, wide, short⟩
  all_goals cases e.symm.trans h

/-- R88 for an instruction: whatever the fault, it is raised at the instruction's own offset. -/
theorem Did.eq_raise_of_faulted {s t : State} {i : Instr} {kind : FaultKind} {off : Word} (did : Did s i t)
    (running : s.status = .running) (faulted : t.status = .faulted kind off) : t = s.raise kind s.pc := by
  cases did with
  | badRegister | divByZero | jmpfOut | jmpbOut =>
    cases faulted
    rfl
  | hlt | invalid => cases faulted
  | load | add | sub | mul | div | jmp | jmpf | jmpb | jeqTaken | jeqNot | eq | neq | gt | lt | gte | lte =>
    cases running.symm.trans faulted

/-- The inversion of a fault of a step: the fetch was truncated, or the fetched instruction met the fault's cause. -/
theorem fault_of_cycle {cfg : Config} {s t : State} {kind : FaultKind} {off : Word} (running : s.status = .running)
    (stepped : cycle cfg s = .next t) (faulted : t.status = .faulted kind off) :
    t = s.raise kind s.pc ∧
    ((kind = .truncatedInstruction ∧ fetch cfg s.program s.pc.toNat = .error .truncated) ∨
      ∃ i, fetch cfg s.program s.pc.toNat = .ok i ∧ FaultCause s i kind) := by
  rcases cycle_of_running cfg s running with ⟨-, atEnd⟩ | ⟨fetched, truncated⟩ | ⟨i, fetched, runs⟩
  · cases atEnd.symm.trans stepped
    cases faulted
  · cases truncated.symm.trans stepped
    cases faulted
    exact ⟨rfl, .inl ⟨rfl, fetched⟩⟩
  · have did := exec_did (runs.symm.trans stepped)
    exact ⟨did.eq_raise_of_faulted running faulted, .inr ⟨i, fetched, did.faultCause running faulted⟩⟩

/-- Settles O17: the length check of the fetch decides the fault, and no instruction raises it. -/
theorem truncatedInstructionExactly : Obligations.TruncatedInstructionExactly := by
  refine ⟨fun cfg s op running hop wide short => ?_, fun cfg s t off running stepped faulted => ?_⟩
  · rw [cycle_of_fetch_truncated running (fetch_of_truncated hop wide short)]
    exact faultsWith_raise _ s
  · obtain ⟨-, ⟨-, fetched⟩ | ⟨i, -, cause⟩⟩ := fault_of_cycle running stepped faulted
    · exact opcode_of_fetch_truncated fetched
    · exact cause.elim

/-- Settles O18: a faulting step is one raise at the old counter. -/
theorem faultsArePrecise : Obligations.FaultsArePrecise := by
  intro cfg s t kind off running stepped faulted
  obtain ⟨rfl, -⟩ := fault_of_cycle running stepped faulted
  cases faulted
  exact ⟨rfl, rfl⟩

/-- Settles O12: neither the step nor any instruction stops the model. -/
theorem everyStepAnswersAState : Obligations.EveryStepAnswersAState := by
  refine ⟨cycle_answers, fun i s => ?_⟩
  obtain ⟨t, runs, -⟩ := exec_answers i s
  exact ⟨t, runs⟩

/-- Settles O11: the step answers the same state (R49), whose status is terminal. -/
theorem terminalStatusIsFinal : Obligations.TerminalStatusIsFinal := by
  intro cfg s terminal
  rw [runOnce_of_cycle_next (cycle_of_not_running cfg s terminal), reportOf_of_not_running terminal]

/-- Settles O20: the codes are those of the definition. -/
theorem runStatusCodes : Obligations.RunStatusCodes :=
  ⟨rfl, rfl, rfl, rfl, fun _ => ⟨rfl, rfl, rfl, rfl⟩⟩

end Sys2Proof.Machine
end

section
/-! PROOFS. Bytes held at an offset (20_memory.md R38; 30_encoding.md R51, R53): the fetch decodes what the program
holds there, so a step runs it, whether replace-program or the load at the counter put it there. -/

namespace Sys2Proof.Machine

/-- R53: the four bytes of an instruction of width 4 are fetched whole. -/
theorem fetch_of_wide {cfg : Config} {m : Memory} {start : Nat} {op b1 b2 b3 : Byte} (wide : (tagOf cfg op).width = 4)
    (h0 : m.read? start = some op) (h1 : m.read? (start + 1) = some b1) (h2 : m.read? (start + 2) = some b2)
    (h3 : m.read? (start + 3) = some b3) : fetch cfg m start = .ok (assemble (tagOf cfg op) op b1 b2 b3) := by
  have fits : ¬ m.length.val < start + 4 := Nat.not_lt.mpr (m.lt_of_read?_eq_some h3)
  have bytes : m.readBytes start 4 = [op, b1, b2, b3] := by simp [Memory.readBytes, h0, h1, h2, h3]
  simp [fetch, h0, wide, fits, bytes, decode_wide cfg op b1 b2 b3 [] wide]

/-- What the bytes at an offset decode to is fetched there (R51, R53). -/
theorem fetch_of_holds {cfg : Config} {m : Memory} {start : Nat} {bytes rest : List Byte} {i : Instr}
    (held : m.holds start bytes) (decoded : decode cfg bytes = .ok (i, rest)) : fetch cfg m start = .ok i := by
  rcases decode_ok_cases decoded with ⟨op, rfl, narrow, rfl⟩ | ⟨op, b1, b2, b3, rfl, wide, rfl⟩
  · exact fetch_of_narrow_tag held.1 rfl narrow
  · obtain ⟨h0, h1, h2, h3, -⟩ := held
    exact fetch_of_wide wide h0 h1 h2 h3

/-- Settles O9: the held bytes are fetched as their instruction, whose body is the step (R55). -/
theorem stepRunsTheDecodedInstruction : Obligations.StepRunsTheDecodedInstruction :=
  ⟨fun _ _ _ _ _ running held decoded => cycle_of_fetch_ok running (fetch_of_holds held decoded), fun _ => rfl⟩

/-- R95 for a sequence that fits. -/
theorem replaceProgram_of_lt {bytes : List Byte} (s : State) (fits : bytes.length < 2 ^ 32) :
    replaceProgram bytes s = .next { s with program := Memory.ofBytes bytes fits, status := .running } :=
  dif_pos fits

/-- The inversion of replace-program (R95). -/
theorem eq_of_replaceProgram {bytes : List Byte} {s t : State} (h : replaceProgram bytes s = .next t) :
    ∃ fits, t = { s with program := Memory.ofBytes bytes fits, status := .running } := by
  by_cases fits : bytes.length < 2 ^ 32
  · exact ⟨fits, Host.Outcome.next.inj (h.symm.trans (replaceProgram_of_lt s fits))⟩
  · rw [replaceProgram, dif_neg fits] at h
    cases h

/-- Settles O3: a sequence that fits is installed and reads back byte for byte; a longer one is refused by name. -/
theorem replaceProgramInstallsTheBytes : Obligations.ReplaceProgramInstallsTheBytes := by
  refine fun bytes s => ⟨fun fits => ?_, fun long => dif_neg (Nat.not_lt.mpr long)⟩
  have reads (a : Nat) : (Memory.ofBytes bytes fits).read? a = bytes[a]? := Memory.read?_ofBytes bytes fits a
  exact ⟨_, replaceProgram_of_lt s fits, rfl, reads, rfl, rfl, rfl, rfl, rfl⟩

/-- Bytes that read back one by one are held. -/
theorem Memory.holds_of_read? {m : Memory} {a : Nat} {bytes : List Byte}
    (reads : ∀ k (h : k < bytes.length), m.read? (a + k) = some bytes[k]) : m.holds a bytes := by
  induction bytes generalizing a with
  | nil => trivial
  | cons b rest ih =>
    refine ⟨reads 0 (Nat.zero_lt_succ _), ih fun k h => ?_⟩
    rw [Nat.add_right_comm, Nat.add_assoc]
    exact reads (k + 1) (Nat.succ_lt_succ h)

/-- The installed program holds its own bytes from every offset on (R26, R33). -/
theorem Memory.holds_ofBytes_drop (bytes : List Byte) (fits : bytes.length < 2 ^ 32) (a : Nat) :
    (Memory.ofBytes bytes fits).holds a (bytes.drop a) := by
  refine Memory.holds_of_read? fun k h => ?_
  rw [Memory.read?_ofBytes, ← List.getElem?_drop, List.getElem?_eq_getElem h]

/-- Settles O4: replace-program keeps the counter, and the new program holds the new bytes from there on. -/
theorem nextStepRunsTheReplacedProgram : Obligations.NextStepRunsTheReplacedProgram := by
  intro cfg bytes s t i rest replaced decoded
  obtain ⟨fits, rfl⟩ := eq_of_replaceProgram replaced
  exact ⟨rfl, cycle_of_fetch_ok rfl (fetch_of_holds (Memory.holds_ofBytes_drop bytes fits _) decoded)⟩

/-- A byte sequence put at an address changes no byte below it. -/
theorem Memory.read?_patch_below {x a : Nat} (below : x < a) (bytes : List Byte) {m : Memory} {b : Byte}
    (h : m.read? x = some b) : (Memory.patch a bytes m).read? x = some b := by
  induction bytes generalizing a m with
  | nil => exact h
  | cons c rest ih =>
    refine ih (Nat.lt_succ_of_lt below) ?_
    rw [m.read?_patchByte_other a x c (Nat.ne_of_lt below) (m.lt_of_read?_eq_some h), h]

/-- A byte sequence put at an address is held there (log 5). -/
theorem Memory.holds_patch {a : Nat} {bytes : List Byte} {m : Memory} (canonical : m.wf = true)
    (fits : a + bytes.length < 2 ^ 32) : (Memory.patch a bytes m).holds a bytes := by
  induction bytes generalizing a m with
  | nil => trivial
  | cons b rest ih =>
    rw [List.length_cons] at fits
    have written : (m.patchByte a b).read? a = some b := m.read?_patchByte_same a b canonical (by omega)
    exact ⟨Memory.read?_patch_below (Nat.lt_succ_self a) rest written, ih (m.wf_patchByte a b canonical) (by omega)⟩

/-- A table word decodes as the four bytes it stands for. -/
theorem decode_tableBytes {nbits w : Nat} {i : Instr} (h : decodeTableWord nbits w = some i) :
    ∃ rest, decode hardwareConfig (tableBytes nbits w) = .ok (i, rest) := by
  rw [decodeTableWord] at h
  split at h
  next j rest decoded =>
    cases h
    exact ⟨rest, decoded⟩
  next => cases h

/-- Settles O56: the word's bytes are held at the counter, and they decode to its instruction. -/
theorem placedWordIsRunNext : Obligations.PlacedWordIsRunNext := by
  intro s nbits w i canonical fits decodes
  obtain ⟨rest, decoded⟩ := decode_tableBytes decodes
  have held : (s.withFetchWord nbits w).program.holds s.pc.toNat (tableBytes nbits w) :=
    Memory.holds_patch canonical fits
  exact cycle_of_fetch_ok rfl (fetch_of_holds held decoded)

end Sys2Proof.Machine
end

section
/-! PROOFS. The canonical form of the program memory (log 1): it is determined by the bytes it reads as, since a listed
cell never holds what an unlisted address reads as. -/

namespace Sys2Proof.Machine

theorem canonicalFrom_cons_iff {bound lo k : Nat} {b : Byte} {cells : List Host.Cell} :
    canonicalFrom bound lo ((k, b) :: cells) = true ↔
      lo ≤ k ∧ k < bound ∧ b ≠ unlistedByte ∧ canonicalFrom bound (k + 1) cells = true := by
  simp only [canonicalFrom, Bool.and_eq_true, decide_eq_true_eq, and_assoc]

/-- Before its first cell a canonical list reads as unlisted. -/
theorem le_of_cellAt_ne {bound lo k a : Nat} {b : Byte} {cells : List Host.Cell}
    (canonical : canonicalFrom bound lo ((k, b) :: cells) = true)
    (listed : cellAt ((k, b) :: cells) a ≠ unlistedByte) : k ≤ a := by
  obtain ⟨-, inBound, notDefault, rest⟩ := canonicalFrom_cons_iff.mp canonical
  have fromHere : canonicalFrom bound k ((k, b) :: cells) = true :=
    canonicalFrom_cons_iff.mpr ⟨Nat.le_refl k, inBound, notDefault, rest⟩
  exact Nat.not_lt.mp fun below => listed (cellAt_below _ fromHere a below)

theorem cellAt_cons_same (k : Nat) (b : Byte) (cells : List Host.Cell) : cellAt ((k, b) :: cells) k = b :=
  if_pos rfl

theorem cellAt_cons_other {k a : Nat} (h : k ≠ a) (b : Byte) (cells : List Host.Cell) :
    cellAt ((k, b) :: cells) a = cellAt cells a :=
  if_neg h

/-- Two canonical lists that read the same below their bound are the same list. -/
theorem canonical_cells_unique {bound lo : Nat} {l l' : List Host.Cell} (canonical : canonicalFrom bound lo l = true)
    (canonical' : canonicalFrom bound lo l' = true) (same : ∀ a < bound, cellAt l a = cellAt l' a) : l = l' := by
  induction l generalizing lo l' with
  | nil =>
    cases l' with
    | nil => rfl
    | cons c' rest' =>
      obtain ⟨k', b'⟩ := c'
      obtain ⟨-, inBound', notDefault', -⟩ := canonicalFrom_cons_iff.mp canonical'
      exact absurd ((same k' inBound').trans (cellAt_cons_same ..)).symm notDefault'
  | cons c rest ih =>
    obtain ⟨k, b⟩ := c
    obtain ⟨-, inBound, notDefault, restCanonical⟩ := canonicalFrom_cons_iff.mp canonical
    have at_k : cellAt l' k = b := (same k inBound).symm.trans (cellAt_cons_same ..)
    cases l' with
    | nil => exact absurd at_k.symm notDefault
    | cons c' rest' =>
      obtain ⟨k', b'⟩ := c'
      obtain ⟨-, inBound', notDefault', restCanonical'⟩ := canonicalFrom_cons_iff.mp canonical'
      have at_k' : cellAt ((k, b) :: rest) k' = b' := (same k' inBound').trans (cellAt_cons_same ..)
      obtain rfl : k = k' := Nat.le_antisymm
        (le_of_cellAt_ne canonical (at_k'.symm ▸ notDefault'))
        (le_of_cellAt_ne canonical' (at_k.symm ▸ notDefault))
      obtain rfl : b = b' := (cellAt_cons_same ..).symm.trans at_k'
      have sameRest (a : Nat) (h : a < bound) : cellAt rest a = cellAt rest' a := by
        rcases Nat.lt_or_ge k a with above | notAbove
        · have := same a h
          rwa [cellAt_cons_other (Nat.ne_of_lt above), cellAt_cons_other (Nat.ne_of_lt above)] at this
        · rw [cellAt_below rest restCanonical a (by omega), cellAt_below rest' restCanonical' a (by omega)]
      rw [ih restCanonical restCanonical' sameRest]

/-- Settles O55: equal reads below the common length are equal cells, and canonical cells that read the same are
equal. -/
theorem canonicalMemoriesAreEqualData : Obligations.CanonicalMemoriesAreEqualData := by
  rintro ⟨length, cells⟩ ⟨length', cells'⟩ canonical canonical' (rfl : length = length') same
  have sameCells (a : Nat) (h : a < length.val) : cellAt cells a = cellAt cells' a := by
    have := same a
    rwa [Memory.read?_of_lt _ h, Memory.read?_of_lt _ h, Option.some_inj] at this
  exact congrArg (Memory.mk length) (canonical_cells_unique canonical canonical' sameCells)

end Sys2Proof.Machine
end

section
/-! PROOFS. The invariant (log 1; 60_exceptions.md R82 to R88): no step writes the program, and the causes of a halt or
a fault, which the state before the step met, still stand in the state after it. -/

namespace Sys2Proof.Machine

/-- A step that halts leaves its reason's cause: the counter one past the opcode byte, or at or past the end. -/
theorem explained_of_haltCause {cfg : Config} {s : State} {reason : HaltReason} (cause : HaltCause cfg s reason) :
    Explained cfg (s.haltedBy reason) := by
  have next_pc {op : Byte} (hop : s.program.read? s.pc.toNat = some op) :
      (s.pc + BitVec.ofNat 32 1).toNat = s.pc.toNat + 1 :=
    toNat_add_of_le_length s.program (s.program.lt_of_read?_eq_some hop)
  cases reason with
  | explicitHalt | unknownOpcode =>
    obtain ⟨op, hop, htag⟩ := cause
    exact ⟨s.pc.toNat, op, next_pc hop, hop, htag⟩
  | endOfProgram => exact cause

/-- A step that faults leaves its fault's cause, since it writes no register and no program byte (R88). -/
theorem explained_of_faultCause {cfg : Config} {s : State} {i : Instr} {kind : FaultKind}
    (fetched : fetch cfg s.program s.pc.toNat = .ok i) (cause : FaultCause s i kind) :
    Explained cfg (s.raise kind s.pc) := by
  cases kind with
  | registerOutOfRange => exact ⟨i, fetched, cause⟩
  | divisionByZero =>
    obtain ⟨s1, s2, d, rfl, h, zero⟩ := cause
    exact ⟨s1, s2, d, fetched, h, zero⟩
  | jumpOutOfBounds =>
    obtain ⟨r, h, ⟨rfl, past⟩ | ⟨rfl, below⟩⟩ := cause
    · exact ⟨r, h, .inl ⟨fetched, past⟩⟩
    · exact ⟨r, h, .inr ⟨fetched, below⟩⟩
  | truncatedInstruction => exact cause.elim

theorem explained_of_running {cfg : Config} {s : State} (running : s.status = .running) : Explained cfg s := by
  rw [Explained, running]
  trivial

/-- Whatever a running step answers is explained. -/
theorem explained_of_cycle {cfg : Config} {s t : State} (running : s.status = .running)
    (stepped : cycle cfg s = .next t) : Explained cfg t := by
  cases status : t.status with
  | running => exact explained_of_running status
  | halted reason =>
    have cause := haltCause_of_cycle running stepped status
    cases (cycle_of_haltCause running cause).symm.trans stepped
    exact explained_of_haltCause cause
  | faulted kind off =>
    obtain ⟨rfl, ⟨rfl, fetched⟩ | ⟨i, fetched, cause⟩⟩ := fault_of_cycle running stepped status
    · exact opcode_of_fetch_truncated fetched
    · exact explained_of_faultCause fetched cause

/-- The invariant is kept by every step (R49 for a terminal status). -/
theorem inv_of_cycle {cfg : Config} {s t : State} (inv : Inv cfg s) (stepped : cycle cfg s = .next t) : Inv cfg t := by
  by_cases running : s.status = .running
  · exact ⟨(cycle_program_eq stepped).symm ▸ inv.1, explained_of_cycle running stepped⟩
  · cases (cycle_of_not_running cfg s running).symm.trans stepped
    exact inv

/-- Settles O53: the step of this hardware is the cycle with its own parameters. -/
theorem everyStepKeepsTheInvariant : Obligations.EveryStepKeepsTheInvariant :=
  ⟨fun _ _ _ => inv_of_cycle, fun _ _ => inv_of_cycle⟩

/-- Settles O52: the empty program has no cells, and Running needs no explanation. -/
theorem resetMeetsTheInvariant : Obligations.ResetMeetsTheInvariant :=
  fun _ => ⟨Memory.wf_empty, explained_of_running rfl⟩

/-- replace-program sets up the invariant whatever stood before: its bytes are laid out canonically, and it runs
(R95). -/
theorem inv_of_replaceProgram (cfg : Config) {bytes : List Byte} {s t : State}
    (replaced : replaceProgram bytes s = .next t) : Inv cfg t := by
  obtain ⟨fits, rfl⟩ := eq_of_replaceProgram replaced
  exact ⟨Memory.wf_ofBytes bytes fits, explained_of_running rfl⟩

/-- Settles O54: construct-fresh and replace-program set the invariant up, and every step keeps it. -/
theorem reachableStatesMeetTheInvariant : Obligations.ReachableStatesMeetTheInvariant := by
  intro cfg s reachable
  induction reachable with
  | fresh => exact resetMeetsTheInvariant cfg
  | replaced bytes _ replaced _ => exact inv_of_replaceProgram cfg replaced
  | stepped _ stepped inv => exact inv_of_cycle inv stepped

end Sys2Proof.Machine
end

section
/-! PROOFS. The jumps (43_jumps.md R69 to R73): what each does for a legal index, and that its four bytes are its
form. -/

namespace Sys2Proof.Machine

/-- R70 for a legal index. -/
theorem exec_jmp_of_legal {r : Byte} (s : State) (h : r.toNat < 32) :
    exec (.jmp r) s = .next (s.setPc (s.reg ⟨r.toNat, h⟩)) := by
  rw [exec, execJmp, withReg_in_range r s _ h]

/-- R71 up to the end. -/
theorem exec_jmpf_of_le {r : Byte} {s : State} (h : r.toNat < 32)
    (fits : s.pc.toNat + (s.regs[r.toNat]).toNat ≤ s.program.length.val) :
    exec (.jmpf r) s = .next (s.setPc (BitVec.ofNat 32 (s.pc.toNat + (s.regs[r.toNat]).toNat))) := by
  rw [exec, execJmpf, withReg_in_range r s _ h]
  exact if_neg (Nat.not_lt.mpr fits)

/-- R72 down to 0. -/
theorem exec_jmpb_of_le {r : Byte} {s : State} (h : r.toNat < 32)
    (fits : (s.regs[r.toNat]).toNat ≤ s.pc.toNat) :
    exec (.jmpb r) s = .next (s.setPc (BitVec.ofNat 32 (s.pc.toNat - (s.regs[r.toNat]).toNat))) := by
  rw [exec, execJmpb, withReg_in_range r s _ h]
  exact if_neg (Nat.not_lt.mpr fits)

/-- R73 with the flag. -/
theorem exec_jeq_of_flag {r : Byte} {s : State} (h : r.toNat < 32) (taken : s.flag = true) :
    exec (.jeq r) s = .next (s.setPc (s.reg ⟨r.toNat, h⟩)) := by
  rw [exec, execJeq, withReg_in_range r s _ h]
  exact if_pos taken

/-- R73 without the flag. -/
theorem exec_jeq_of_no_flag {r : Byte} {s : State} (h : r.toNat < 32) (notTaken : s.flag = false) :
    exec (.jeq r) s = .next (s.advance 4) := by
  rw [exec, execJeq, withReg_in_range r s _ h, notTaken]
  rfl

/-- Settles O30: the target is the register's word, which the counter takes as it is. -/
theorem jumpAbsoluteWritesTheCounter : Obligations.JumpAbsoluteWritesTheCounter :=
  ⟨hasForm_of_assemble rfl fun _ _ _ _ => rfl, fun _ s h => ⟨_, rfl, exec_jmp_of_legal s h⟩⟩

/-- Settles O31: a target of at most `L` is below 2^32, so the counter holds it exactly. -/
theorem jumpForwardAddsToItsOwnOffset : Obligations.JumpForwardAddsToItsOwnOffset := by
  refine ⟨hasForm_of_assemble rfl fun _ _ _ _ => rfl, fun r s h => ⟨fun fits => ?_, fun past => ?_⟩⟩
  · have narrow := Nat.lt_of_le_of_lt fits s.program.length.isLt
    refine ⟨_, ?_, exec_jmpf_of_le h fits⟩
    rw [BitVec.toNat_ofNat, Nat.mod_eq_of_lt narrow]
  · rw [exec_jmpf_of_past_end h past]
    exact faultsWith_raise _ s

/-- Settles O32: a target of at most the old counter is below 2^32, so the counter holds it exactly. -/
theorem jumpBackwardSubtractsFromItsOwnOffset : Obligations.JumpBackwardSubtractsFromItsOwnOffset := by
  refine ⟨hasForm_of_assemble rfl fun _ _ _ _ => rfl, fun r s h => ⟨fun fits => ?_, fun below => ?_⟩⟩
  · have narrow := Nat.lt_of_le_of_lt (Nat.sub_le s.pc.toNat (s.regs[r.toNat]).toNat) s.pc.isLt
    refine ⟨_, ?_, exec_jmpb_of_le h fits⟩
    rw [BitVec.toNat_ofNat, Nat.mod_eq_of_lt narrow, Nat.sub_add_cancel fits]
  · rw [exec_jmpb_of_below_zero h below]
    exact faultsWith_raise _ s

/-- Settles O33: the flag alone chooses between the two ways on. -/
theorem jumpIfEqualFollowsTheFlag : Obligations.JumpIfEqualFollowsTheFlag :=
  ⟨hasForm_of_assemble rfl fun _ _ _ _ => rfl,
    fun _ _ h => ⟨fun taken => ⟨_, rfl, exec_jeq_of_flag h taken⟩, fun notTaken => exec_jeq_of_no_flag h notTaken⟩⟩

end Sys2Proof.Machine
end

section
/-! PROOFS. The extended comparisons (44_compare.md R75, R77 to R81), and a register compared with itself. -/

namespace Sys2Proof.Machine

theorem condNotEqual_iff (p q : Word) : condNotEqual p q = true ↔ p.toInt ≠ q.toInt := decide_eq_true_iff

theorem condGreaterThan_iff (p q : Word) : condGreaterThan p q = true ↔ p.toInt > q.toInt := decide_eq_true_iff

theorem condLessThan_iff (p q : Word) : condLessThan p q = true ↔ p.toInt < q.toInt := decide_eq_true_iff

theorem condGreaterOrEqual_iff (p q : Word) : condGreaterOrEqual p q = true ↔ p.toInt ≥ q.toInt := decide_eq_true_iff

theorem condLessOrEqual_iff (p q : Word) : condLessOrEqual p q = true ↔ p.toInt ≤ q.toInt := decide_eq_true_iff

/-- Settles O35: each is assembled from its four bytes with the padding byte dropped, and its body is the comparison
shape with its own test. -/
theorem extendedComparisonsWriteTheFlag : Obligations.ExtendedComparisonsWriteTheFlag :=
  ⟨compareRule_of_exec (hasForm_of_assemble rfl fun _ _ _ _ => rfl) (fun _ _ _ => rfl) condNotEqual_iff,
    compareRule_of_exec (hasForm_of_assemble rfl fun _ _ _ _ => rfl) (fun _ _ _ => rfl) condGreaterThan_iff,
    compareRule_of_exec (hasForm_of_assemble rfl fun _ _ _ _ => rfl) (fun _ _ _ => rfl) condLessThan_iff,
    compareRule_of_exec (hasForm_of_assemble rfl fun _ _ _ _ => rfl) (fun _ _ _ => rfl) condGreaterOrEqual_iff,
    compareRule_of_exec (hasForm_of_assemble rfl fun _ _ _ _ => rfl) (fun _ _ _ => rfl) condLessOrEqual_iff⟩

/-- A comparison of a register with itself writes what its test says of two equal words (R75). -/
theorem comparison_self {cond : Word → Word → Bool} {result : Bool} (self : ∀ p, cond p p = result) {a : Byte}
    (s : State) (h : a.toNat < 32) :
    comparison cond a a s = .next { s with flag := result, pc := s.pc + 4 } := by
  rw [comparison_in_range cond a a s h h, self]
  rfl

/-- Settles O36: of two equal numbers, neither is the greater. -/
theorem selfComparisonResults : Obligations.SelfComparisonResults := by
  intro a s h
  simp only [List.forall_mem_cons, List.not_mem_nil, false_implies, implies_true, and_true]
  exact ⟨comparison_self (fun p => decide_eq_true rfl) s h,
    comparison_self (fun p => decide_eq_false fun ne => ne rfl) s h,
    comparison_self (fun p => decide_eq_false (Int.lt_irrefl _)) s h,
    comparison_self (fun p => decide_eq_false (Int.lt_irrefl _)) s h,
    comparison_self (fun p => decide_eq_true (Int.le_refl _)) s h,
    comparison_self (fun p => decide_eq_true (Int.le_refl _)) s h⟩

end Sys2Proof.Machine
end

section
/-! PROOFS. The laws of the integer arithmetic (42_arithmetic.md R63, R67, R68): ADD, SUB and MUL do not depend on how
their operands are read, and DIV writes the truncated quotient and its remainder. -/

namespace Sys2Proof.Machine

/-- The narrowed sum of the signed readings is the sum of the patterns (R63). -/
theorem wrap32_add (p q : Word) : wrap32 (asS32 p + asS32 q) = p + q := by
  rw [wrap32, asS32, asS32, BitVec.ofInt_add, BitVec.ofInt_toInt, BitVec.ofInt_toInt]

theorem wrap32_sub (p q : Word) : wrap32 (asS32 p - asS32 q) = p - q := by
  rw [wrap32, asS32, asS32, Int.sub_eq_add_neg, BitVec.ofInt_add, BitVec.ofInt_neg, BitVec.ofInt_toInt,
    BitVec.ofInt_toInt, BitVec.sub_eq_add_neg]

theorem wrap32_mul (p q : Word) : wrap32 (asS32 p * asS32 q) = p * q := by
  rw [wrap32, asS32, asS32, BitVec.ofInt_mul, BitVec.ofInt_toInt, BitVec.ofInt_toInt]

/-- The pattern of a difference, read as unsigned, is the difference of the unsigned readings modulo 2^32 (R63). -/
theorem toNat_sub_eq_emod (p q : Word) : ((p - q).toNat : Int) = ((p.toNat : Int) - q.toNat) % 2 ^ 32 := by
  rw [BitVec.toNat_sub]
  omega

/-- R62 for legal indices: the destination holds the narrowed result. -/
theorem arithmetic_destination {op : Int → Int → Int} {s1 s2 d : Byte} {s t : State} (h1 : s1.toNat < 32)
    (h2 : s2.toNat < 32) (h3 : d.toNat < 32) (h : arithmetic op s1 s2 d s = .next t) :
    t.regs[d.toNat] = wrap32 (op (asS32 s.regs[s1.toNat]) (asS32 s.regs[s2.toNat])) := by
  cases (arithmetic_in_range op s1 s2 d s h1 h2 h3).symm.trans h
  exact Vector.getElem_set_self h3

/-- Settles O27: the narrowed results are the operations on patterns, which are those on unsigned numbers modulo
2^32. -/
theorem signednessDoesNotChangeAddSubMul : Obligations.SignednessDoesNotChangeAddSubMul := by
  refine fun s1 s2 d s t h1 h2 h3 => ⟨fun add => ?_, fun sub => ?_, fun mul => ?_⟩
  · rw [arithmetic_destination h1 h2 h3 add, wrap32_add, BitVec.toNat_add]
  · rw [arithmetic_destination h1 h2 h3 sub, wrap32_sub, toNat_sub_eq_emod]
  · rw [arithmetic_destination h1 h2 h3 mul, wrap32_mul, BitVec.toNat_mul]

/-- R67 for legal indices and a divisor other than 0. -/
theorem exec_div_of_nonzero_divisor {s1 s2 d : Byte} {s : State} (h1 : s1.toNat < 32) (h2 : s2.toNat < 32)
    (h3 : d.toNat < 32) (nonzero : asS32 s.regs[s2.toNat] ≠ 0) :
    exec (.div s1 s2 d) s = .next (((s.setReg ⟨d.toNat, h3⟩
      (wrap32 (quotient (asS32 s.regs[s1.toNat]) (asS32 s.regs[s2.toNat])))).setRem
      (remainderPattern (remainder (asS32 s.regs[s1.toNat]) (asS32 s.regs[s2.toNat])))).advance 4) := by
  rw [exec, execDiv, withReg3_in_range s1 s2 d s _ h1 h2 h3]
  exact if_neg nonzero

/-- The remainder of R63 is that of the division rounded toward zero (D10). -/
theorem remainder_eq_tmod (a b : Int) : remainder a b = a.tmod b := by
  rw [remainder, quotient, Int.tmod_def, Int.mul_comm]

theorem quotient_mul_add_remainder (a b : Int) : quotient a b * b + remainder a b = a :=
  add_sub_cancel ..

theorem abs_remainder_lt (a : Int) {b : Int} (nonzero : b ≠ 0) : |remainder a b| < |b| := by
  rw [remainder_eq_tmod, Int.abs_eq_natAbs, Int.abs_eq_natAbs, Int.natAbs_tmod, Nat.cast_lt]
  exact Nat.mod_lt _ (Int.natAbs_pos.mpr nonzero)

/-- The remainder is 0 or has the sign of the dividend (R63). -/
theorem remainder_eq_zero_or_sign (a b : Int) : remainder a b = 0 ∨ (remainder a b).sign = a.sign := by
  rw [remainder_eq_tmod, Int.sign_tmod]
  split
  next divides => exact .inl (Int.tmod_eq_zero_of_dvd divides)
  next => exact .inr rfl

/-- Settles O28: the quotient rounded toward zero and its remainder meet the law of R63. -/
theorem divWritesQuotientAndRemainder : Obligations.DivWritesQuotientAndRemainder := by
  refine ⟨hasForm_of_assemble rfl fun _ _ _ _ => rfl, fun s1 s2 d s h1 h2 h3 nonzero => ?_⟩
  have divisor : asS32 s.regs[s2.toNat] ≠ 0 := mt (asS32_eq_zero_iff _).mp nonzero
  exact ⟨_, _, _, _, (quotient_mul_add_remainder ..).symm, abs_remainder_lt _ divisor, remainder_eq_zero_or_sign _ _,
    wrap32_toInt _, asU32_wrap32 _, exec_div_of_nonzero_divisor h1 h2 h3 divisor⟩

/-- Settles O29: each row gives the two operands, and the quotient and the remainder of numbers are evaluated. -/
theorem divisionTableOfSigns : Obligations.DivisionTableOfSigns := by
  intro row member s1 s2 d s h1 h2 h3 dividend divisor
  have entries : row.2.1 ≠ 0 ∧ (wrap32 (quotient row.1 row.2.1)).toInt = row.2.2.1 ∧
      (remainderPattern (remainder row.1 row.2.1)).toNat = row.2.2.2 := by
    clear dividend divisor
    revert row
    decide
  obtain ⟨nonzero, hq, hr⟩ := entries
  refine ⟨_, exec_div_of_nonzero_divisor h1 h2 h3 (divisor.trans_ne nonzero), ?_, ?_⟩
  · rw [← hq, ← dividend, ← divisor]
    exact congrArg BitVec.toInt (Vector.getElem_set_self h3)
  · rw [← hr, ← dividend, ← divisor]
    rfl

end Sys2Proof.Machine
end

section
/-! PROOFS. The frames of the registers, the flag, the remainder slot and the status (10_state.md R15, R21, R23 to R25):
what each way of running an instruction leaves as it was, and what a step then leaves. -/

namespace Sys2Proof.Machine

/-- R15: no register but the destination is written. -/
theorem Did.regs_frame {s t : State} {i : Instr} {r : Fin 32} (did : Did s i t)
    (other : ∀ d, i.destination = some d → d.toNat ≠ r.val) : t.regs[r.val] = s.regs[r.val] := by
  cases did with
  | load d _ h => exact Vector.getElem_set_ne h r.isLt (other d rfl)
  | add _ _ d _ _ h | sub _ _ d _ _ h | mul _ _ d _ _ h | div _ _ d _ _ h =>
    exact Vector.getElem_set_ne h r.isLt (other d rfl)
  | badRegister | divByZero | jmpfOut | jmpbOut | hlt | invalid | jmp | jmpf | jmpb | jeqTaken | jeqNot | eq | neq
  | gt | lt | gte | lte => rfl

/-- Settles O37: an instruction with a destination sets that register, the others set none. -/
theorem onlyTheDestinationRegisterIsWritten : Obligations.OnlyTheDestinationRegisterIsWritten :=
  fun _ _ _ _ runs => (exec_did runs).regs_frame

/-- R21: only the comparisons set the flag. -/
theorem Did.flag_eq {s t : State} {i : Instr} (did : Did s i t) (noComparison : i.tag ∉ comparisonTags) :
    t.flag = s.flag := by
  cases did with
  | eq | neq | gt | lt | gte | lte => exact absurd (by simp [Instr.tag, comparisonTags]) noComparison
  | badRegister | divByZero | jmpfOut | jmpbOut | hlt | invalid | load | add | sub | mul | div | jmp | jmpf | jmpb
  | jeqTaken | jeqNot => rfl

/-- R23: only a DIV that completes sets the remainder slot. -/
theorem Did.rem_eq {s t : State} {i : Instr} (did : Did s i t) (noDiv : i.tag ≠ .div) : t.rem = s.rem := by
  cases did with
  | div => exact absurd rfl noDiv
  | divByZero | badRegister | jmpfOut | jmpbOut | hlt | invalid | load | add | sub | mul | jmp | jmpf | jmpb
  | jeqTaken | jeqNot | eq | neq | gt | lt | gte | lte => rfl

/-- A field that neither a halt nor a fault writes is kept by a step whose instruction, where it fetches one, keeps
it. -/
theorem field_eq_of_cycle {α : Type} {field : State → α} {cfg : Config} {s t : State}
    (halted : ∀ reason, field (s.halt reason) = field s) (raised : ∀ kind, field (s.raise kind s.pc) = field s)
    (ran : ∀ i, fetch cfg s.program s.pc.toNat = .ok i → Did s i t → field t = field s)
    (stepped : cycle cfg s = .next t) : field t = field s := by
  by_cases running : s.status = .running
  · rcases cycle_of_running cfg s running with ⟨-, atEnd⟩ | ⟨-, truncated⟩ | ⟨i, fetched, runs⟩
    · cases atEnd.symm.trans stepped
      exact halted _
    · cases truncated.symm.trans stepped
      exact raised _
    · exact ran i fetched (exec_did (runs.symm.trans stepped))
  · cases (cycle_of_not_running cfg s running).symm.trans stepped
    rfl

/-- Settles O38: a faulting step is one raise, and any other sets the flag only by a comparison. -/
theorem onlyComparisonsWriteTheFlag : Obligations.OnlyComparisonsWriteTheFlag := by
  refine ⟨fun i s t runs => (exec_did runs).flag_eq, fun cfg s t stepped noComparison => ?_,
    fun cfg s t kind off running stepped faulted => ?_⟩
  · exact field_eq_of_cycle (field := State.flag) (fun _ => rfl) (fun _ => rfl)
      (fun i fetched did => did.flag_eq (noComparison i fetched)) stepped
  · obtain ⟨rfl, -⟩ := fault_of_cycle running stepped faulted
    rfl

theorem Instr.eq_div_of_tag {i : Instr} (h : i.tag = .div) : ∃ s1 s2 d, i = .div s1 s2 d := by
  cases i with
  | div s1 s2 d => exact ⟨s1, s2, d, rfl⟩
  | _ => cases h

theorem Instr.eq_jeq_of_tag {i : Instr} (h : i.tag = .jumpIfEqual) : ∃ r, i = .jeq r := by
  cases i with
  | jeq r => exact ⟨r, rfl⟩
  | _ => cases h

/-- Settles O39: a faulting instruction is one raise, and any other sets the slot only by DIV. -/
theorem onlyDivWritesTheRemainder : Obligations.OnlyDivWritesTheRemainder := by
  refine ⟨fun i s t runs => (exec_did runs).rem_eq, fun cfg s t stepped noDiv => ?_,
    fun i s t kind off running runs faulted => ?_⟩
  · refine field_eq_of_cycle (field := State.rem) (fun _ => rfl) (fun _ => rfl)
      (fun i fetched did => did.rem_eq fun isDiv => ?_) stepped
    obtain ⟨s1, s2, d, rfl⟩ := Instr.eq_div_of_tag isDiv
    exact noDiv s1 s2 d fetched
  · rw [(exec_did runs).eq_raise_of_faulted running faulted]
    rfl

/-- Settles O41: each way of running an instruction keeps the status, halts or raises one fault. -/
theorem statusWrittenOnlyByHaltsAndFaults : Obligations.StatusWrittenOnlyByHaltsAndFaults := by
  intro i s t runs
  cases exec_did runs with
  | hlt => exact .inr (.inl ⟨rfl, rfl⟩)
  | invalid => exact .inr (.inr (.inl ⟨rfl, rfl⟩))
  | badRegister bad =>
    obtain ⟨f, hf, -⟩ := bad
    exact .inr (.inr (.inr (.inl ⟨List.ne_nil_of_mem hf, rfl⟩)))
  | divByZero => exact .inr (.inr (.inr (.inr (.inl ⟨rfl, rfl⟩))))
  | jmpfOut => exact .inr (.inr (.inr (.inr (.inr ⟨.inl rfl, rfl⟩))))
  | jmpbOut => exact .inr (.inr (.inr (.inr (.inr ⟨.inr rfl, rfl⟩))))
  | load | add | sub | mul | div | jmp | jmpf | jmpb | jeqTaken | jeqNot | eq | neq | gt | lt | gte | lte =>
    exact .inl rfl

end Sys2Proof.Machine
end

section
/-! PROOFS. Who reads the flag and the remainder slot (10_state.md R21, R23): two runs from states that differ only in
these two fields answer states that differ only there, as long as no JEQ sees two different flags. -/

namespace Sys2Proof.Machine

/-- The states `t` and `t'` after two runs, from `s` and from `s` with flag `b` and remainder slot `v`: they differ in
these fields at most, and each field where it differs is as it was before. -/
structure DifferInSlots (s : State) (b : Bool) (v : Word) (t t' : State) : Prop where
  rest : (t'.setFlag t.flag).setRem t.rem = t
  flag : t'.flag = t.flag ∨ (t.flag = s.flag ∧ t'.flag = b)
  rem : t'.rem = t.rem ∨ (t.rem = s.rem ∧ t'.rem = v)

/-- Both runs answer, and what they answer differs in the flag and the remainder slot at most. -/
def RunsAgree (s : State) (b : Bool) (v : Word) (run run' : Result) : Prop :=
  ∃ t t', run = .next t ∧ run' = .next t' ∧ DifferInSlots s b v t t'

variable {s : State} {b : Bool} {v : Word}

/-- Runs that write neither field agree. -/
theorem runsAgree_of_kept {t : State} (flag : t.flag = s.flag) (rem : t.rem = s.rem) :
    RunsAgree s b v (.next t) (.next ((t.setFlag b).setRem v)) :=
  ⟨_, _, rfl, rfl, rfl, .inr ⟨flag, rfl⟩, .inr ⟨rem, rfl⟩⟩

/-- The range check reads neither field. -/
theorem withReg_runsAgree {field : Byte} {body body' : Fin 32 → Result}
    (agree : ∀ r, RunsAgree s b v (body r) (body' r)) :
    RunsAgree s b v (withReg field s body) (withReg field ((s.setFlag b).setRem v) body') := by
  rcases Nat.lt_or_ge field.toNat 32 with legal | bad
  · rw [withReg_in_range _ _ _ legal, withReg_in_range _ _ _ legal]
    exact agree _
  · rw [withReg_out_of_range _ _ _ bad, withReg_out_of_range _ _ _ bad]
    exact runsAgree_of_kept (t := s.raise .registerOutOfRange s.pc) rfl rfl

theorem withReg2_runsAgree {f1 f2 : Byte} {body body' : Fin 32 → Fin 32 → Result}
    (agree : ∀ p q, RunsAgree s b v (body p q) (body' p q)) :
    RunsAgree s b v (withReg2 f1 f2 s body) (withReg2 f1 f2 ((s.setFlag b).setRem v) body') :=
  withReg_runsAgree fun p => withReg_runsAgree fun q => agree p q

theorem withReg3_runsAgree {f1 f2 f3 : Byte} {body body' : Fin 32 → Fin 32 → Fin 32 → Result}
    (agree : ∀ p q r, RunsAgree s b v (body p q r) (body' p q r)) :
    RunsAgree s b v (withReg3 f1 f2 f3 s body) (withReg3 f1 f2 f3 ((s.setFlag b).setRem v) body') :=
  withReg_runsAgree fun p => withReg2_runsAgree fun q r => agree p q r

/-- A choice that both runs make alike. -/
theorem ite_runsAgree {c : Prop} [Decidable c] {yes no yes' no' : Result} (agreeYes : RunsAgree s b v yes yes')
    (agreeNo : RunsAgree s b v no no') : RunsAgree s b v (if c then yes else no) (if c then yes' else no') := by
  by_cases h : c
  · rwa [if_pos h, if_pos h]
  · rwa [if_neg h, if_neg h]

/-- The arithmetic shape reads neither field (R62). -/
theorem arithmetic_runsAgree (op : Int → Int → Int) (s1 s2 d : Byte) :
    RunsAgree s b v (arithmetic op s1 s2 d s) (arithmetic op s1 s2 d ((s.setFlag b).setRem v)) := by
  refine withReg3_runsAgree fun i j k => ?_
  exact runsAgree_of_kept (t := (s.setReg k (wrap32 (op (asS32 (s.reg i)) (asS32 (s.reg j))))).advance 4) rfl rfl

/-- The comparison shape writes the same flag in both runs (R74). -/
theorem comparison_runsAgree (cond : Word → Word → Bool) (p q : Byte) :
    RunsAgree s b v (comparison cond p q s) (comparison cond p q ((s.setFlag b).setRem v)) :=
  withReg2_runsAgree fun _ _ => ⟨_, _, rfl, rfl, rfl, .inl rfl, .inr ⟨rfl, rfl⟩⟩

/-- No instruction reads the remainder slot, and only JEQ reads the flag. -/
theorem exec_runsAgree {i : Instr} (sameFlag : i.tag = .jumpIfEqual → b = s.flag) :
    RunsAgree s b v (exec i s) (exec i ((s.setFlag b).setRem v)) := by
  cases i with
  | hlt => exact runsAgree_of_kept (t := (s.advance 1).halt .explicitHalt) rfl rfl
  | invalid => exact runsAgree_of_kept (t := (s.advance 1).halt .unknownOpcode) rfl rfl
  | load r imm => exact withReg_runsAgree fun d => runsAgree_of_kept (t := (s.setReg d (sext32 imm)).advance 4) rfl rfl
  | add | sub | mul => exact arithmetic_runsAgree ..
  | div =>
    simp only [exec, execDiv]
    refine withReg3_runsAgree fun _ _ _ => ite_runsAgree ?_ ?_
    · exact runsAgree_of_kept (t := s.raise .divisionByZero s.pc) rfl rfl
    · exact ⟨_, _, rfl, rfl, rfl, .inr ⟨rfl, rfl⟩, .inl rfl⟩
  | jmp => exact withReg_runsAgree fun p => runsAgree_of_kept (t := s.setPc (s.reg p)) rfl rfl
  | jmpf | jmpb =>
    simp only [exec, execJmpf, execJmpb]
    refine withReg_runsAgree fun _ => ite_runsAgree ?_ ?_
    · exact runsAgree_of_kept (t := s.raise .jumpOutOfBounds s.pc) rfl rfl
    · exact ⟨_, _, rfl, rfl, rfl, .inr ⟨rfl, rfl⟩, .inr ⟨rfl, rfl⟩⟩
  | jeq =>
    cases sameFlag rfl
    simp only [exec, execJeq]
    refine withReg_runsAgree fun p => ite_runsAgree ?_ ?_
    · exact runsAgree_of_kept (t := s.setPc (s.reg p)) rfl rfl
    · exact runsAgree_of_kept (t := s.advance 4) rfl rfl
  | eq | neq | gt | lt | gte | lte => exact comparison_runsAgree ..

/-- The checks before an instruction's body read neither field (R56). -/
theorem cycle_runsAgree {cfg : Config}
    (sameFlag : ∀ i, fetch cfg s.program s.pc.toNat = .ok i → i.tag = .jumpIfEqual → b = s.flag) :
    RunsAgree s b v (cycle cfg s) (cycle cfg ((s.setFlag b).setRem v)) := by
  by_cases running : s.status = .running
  · have running' : ((s.setFlag b).setRem v).status = .running := running
    rcases cycle_of_running cfg s running with ⟨fetched, e⟩ | ⟨fetched, e⟩ | ⟨i, fetched, e⟩
    · rw [e, cycle_of_fetch_noOpcode running' fetched]
      exact runsAgree_of_kept (t := s.halt .endOfProgram) rfl rfl
    · rw [e, cycle_of_fetch_truncated running' fetched]
      exact runsAgree_of_kept (t := s.raise .truncatedInstruction s.pc) rfl rfl
    · rw [e, cycle_of_fetch_ok running' fetched]
      exact exec_runsAgree (sameFlag i fetched)
  · rw [cycle_of_not_running cfg s running, cycle_of_not_running cfg ((s.setFlag b).setRem v) running]
    exact runsAgree_of_kept (t := s) rfl rfl

end Sys2Proof.Machine
end

section
/-! PROOFS. The two-run statements of R21, R23 and R100, each with the other field left alone. -/

namespace Sys2Proof.Machine

/-- Settles O42: two runs that differ in the flag agree on the rest; without the extension no byte is a JEQ. -/
theorem onlyJumpIfEqualReadsTheFlag : Obligations.OnlyJumpIfEqualReadsTheFlag := by
  refine ⟨fun cfg s t b noJeq stepped => ?_, fun cfg m start r absent fetched => ?_⟩
  · have sameFlag (i : Instr) (fetched : fetch cfg s.program s.pc.toNat = .ok i) (isJeq : i.tag = .jumpIfEqual) :
        b = s.flag := by
      obtain ⟨r, rfl⟩ := Instr.eq_jeq_of_tag isJeq
      exact absurd fetched (noJeq r)
    obtain ⟨u, t', e, stepped', rest, flag, rem⟩ := cycle_runsAgree (v := s.rem) sameFlag
    cases e.symm.trans stepped
    have sameRem : t'.rem = t.rem := rem.elim id fun ⟨old, old'⟩ => old'.trans old.symm
    exact ⟨t', stepped', sameRem ▸ rest, flag⟩
  · obtain ⟨op, -, htag⟩ := opcode_of_fetch_ok fetched
    have extended : (tagOf cfg op).extended = true := htag ▸ rfl
    cases absent.symm.trans (extCmp_of_tagOf_extended extended)

/-- Settles O43: two runs that differ in the remainder slot agree on the rest, JEQ included, since the flag is one. -/
theorem nothingReadsTheRemainder : Obligations.NothingReadsTheRemainder := by
  intro cfg s t v stepped
  obtain ⟨u, t', e, stepped', rest, flag, rem⟩ := cycle_runsAgree (cfg := cfg) (b := s.flag) (v := v) fun _ _ _ => rfl
  cases e.symm.trans stepped
  have sameFlag : t'.flag = t.flag := flag.elim id fun ⟨old, old'⟩ => old'.trans old.symm
  exact ⟨t', stepped', sameFlag ▸ rest, rem⟩

end Sys2Proof.Machine
end

section
/-! PROOFS. Runs of the host (60_exceptions.md R97, R99; 70_reset_and_hazards.md R106, R111): a run is as many steps, so
a state that a step keeps is never left, and the fresh machine halts in its first step. -/

namespace Sys2Proof.Machine

/-- Settles O7: a run is as many steps as its budget, whether or not one of them stopped it. -/
theorem exhaustedBudgetIsThatManySteps : Obligations.ExhaustedBudgetIsThatManySteps :=
  fun cfg n s _ ran _ => (runBounded_eq_steps cfg n s).symm.trans ran

/-- A state that a step keeps is kept by any number of steps. -/
theorem steps_of_cycle_self {cfg : Config} {s : State} (kept : cycle cfg s = .next s) (n : Nat) :
    steps cfg n s = .next s := by
  induction n with
  | zero => rfl
  | succ n ih => rw [steps_succ_of_cycle_next n kept, ih]

/-- A run never returns from a running state that a step keeps (R111). -/
theorem not_runReturns_of_cycle_self {cfg : Config} {s : State} (running : s.status = .running)
    (kept : cycle cfg s = .next s) (t : State) : ¬ RunReturns cfg s t := by
  intro returns
  obtain ⟨terminal, n, ends⟩ := (runReturnsTheTerminalState cfg s t).mp returns
  cases (steps_of_cycle_self kept (n + 1)).symm.trans ends
  exact terminal running

theorem State.setPc_ofNat_toNat_pc (s : State) : s.setPc (BitVec.ofNat 32 s.pc.toNat) = s := by
  rw [BitVec.ofNat_toNat, BitVec.setWidth_eq]
  rfl

/-- R71 for a distance of 0: the target is the offset of the jump itself, which is within the program. -/
theorem exec_jmpf_of_zero {r : Byte} {s : State} (h : r.toNat < 32) (zero : s.regs[r.toNat] = 0)
    (within : s.pc.toNat ≤ s.program.length.val) : exec (.jmpf r) s = .next s := by
  have distance : (s.regs[r.toNat]).toNat = 0 := congrArg BitVec.toNat zero
  rw [exec_jmpf_of_le h (by omega), distance, Nat.add_zero, State.setPc_ofNat_toNat_pc]

/-- R72 for a distance of 0. -/
theorem exec_jmpb_of_zero {r : Byte} {s : State} (h : r.toNat < 32) (zero : s.regs[r.toNat] = 0) :
    exec (.jmpb r) s = .next s := by
  have distance : (s.regs[r.toNat]).toNat = 0 := congrArg BitVec.toNat zero
  rw [exec_jmpb_of_le h (by omega), distance, Nat.sub_zero, State.setPc_ofNat_toNat_pc]

/-- Settles O8: either jump keeps the state, and no run returns from a running state that is kept. -/
theorem zeroDistanceJumpLoopsForever : Obligations.ZeroDistanceJumpLoopsForever := by
  intro cfg s r h running zero fetched
  have kept : cycle cfg s = .next s := by
    rcases fetched with forward | backward
    · have within : s.pc.toNat ≤ s.program.length.val := Nat.le_of_add_right_le (fetch_ok_width_le forward)
      rw [cycle_of_fetch_ok running forward, exec_jmpf_of_zero h zero within]
    · rw [cycle_of_fetch_ok running backward, exec_jmpb_of_zero h zero]
  exact ⟨kept, not_runReturns_of_cycle_self running kept⟩

/-- Any positive number of steps of the fresh machine is the one end-of-program halt (R50, R106). -/
theorem steps_succ_constructFresh (cfg : Config) (n : Nat) :
    steps cfg (n + 1) constructFresh = .next (State.reset.halt .endOfProgram) := by
  have halts : cycle cfg constructFresh = .next (State.reset.halt .endOfProgram) :=
    cycle_of_fetch_noOpcode rfl (fetch_of_length_le cfg (Nat.zero_le _))
  rw [steps_succ_of_cycle_next n halts]
  exact steps_of_not_running cfg n RunStatus.noConfusion

/-- Settles O2: the halt is terminal, and it is where every positive number of steps ends. -/
theorem freshRunHaltsAtOnce : Obligations.FreshRunHaltsAtOnce := by
  intro cfg t
  rw [runReturnsTheTerminalState cfg constructFresh t]
  constructor
  · rintro ⟨-, n, ends⟩
    exact Host.Outcome.next.inj (ends.symm.trans (steps_succ_constructFresh cfg n))
  · rintro rfl
    exact ⟨RunStatus.noConfusion, 0, steps_succ_constructFresh cfg 0⟩

end Sys2Proof.Machine
end
